-- ==== Sys2Proof/Word.lean ====
section
/-! DEFINITION. The bit-vector types of the Plane Packer: what the spec treats as bits, and nothing else. Counts, cursors
and lengths are natural numbers (spec/00_scope.md R10). -/

namespace Sys2Proof

/-- Format Q (R70): a Quantized Scalar of `sw` bits. -/
abbrev Scalar (sw : Nat) := BitVec sw

/-- Format P (R71): a Packed Word of `w` bits; bit `k` belongs to the block's `k`-th element. -/
abbrev PackedWord (w : Nat) := BitVec w

/-- Format SEL (R82): the selector vector, `sel[2] = run`, `sel[1] = full`, `sel[0] = last`. -/
abbrev SelWord := BitVec 3

/-- Format STATUS (R33, R74): bit 0 `BUSY`, bit 1 `DONE`, bit 2 `ERR`. -/
abbrev StatusWord := BitVec 3

end Sys2Proof
end

