-- ==== Sys2Proof/Config.lean ====
section
/-! DEFINITION. The build-time parameters `W`, `SW`, `LW` (spec/00_scope.md R5, R6) and the ones the machine of
`State.reset` is built with. -/

namespace Sys2Proof

/-- R5: the three parameters, fixed when the block is built. A block with `W = 0` does not exist (R6, U7), nor one with
`SW < 2` (D3, U8) or `LW = 0` (R5): such a value cannot be built. -/
structure Params where
  W  : Nat
  SW : Nat
  LW : Nat
  W_pos   : 1 ≤ W
  SW_two  : 2 ≤ SW
  LW_pos  : 1 ≤ LW
deriving DecidableEq, Repr

/-- Why a block cannot be built. Raised by `Params.instantiate` only, never by a step; safe. -/
inductive BuildRefusal where
  /-- `W = 0` (R6, U7). -/
  | zeroWordWidth
  /-- `SW < 2` (D3, U8): bit 1 of a scalar must exist. -/
  | scalarTooNarrow
  /-- `LW = 0` (R5). -/
  | zeroLengthWidth
deriving DecidableEq, Repr

/-- Building a block from three numbers: refused by name where R5 and R6 refuse it. -/
def Params.instantiate (W SW LW : Nat) : Except BuildRefusal Params :=
  if hW : 1 ≤ W then
    if hS : 2 ≤ SW then
      if hL : 1 ≤ LW then .ok ⟨W, SW, LW, hW, hS, hL⟩ else .error .zeroLengthWidth
    else .error .scalarTooNarrow
  else .error .zeroWordWidth

/-- DESIGN CHOICE (log 2): the spec leaves `W`, `SW` and `LW` OPEN; a machine that can be run needs some. `W = 4` is the
`BitCount` of the source's own worked example (V1). UNSAFE if leaned on: statements quantify over every `Params`. -/
def Config.params : Params := ⟨4, 8, 32, by decide, by decide, by decide⟩

end Sys2Proof
end

