-- ==== Sys2Proof/Machine/State.lean ====
section
/-! DEFINITION. The state: the packer's registers (spec/10_state.md R20), the two data spaces the host owns
(spec/20_memory.md R40, R43), what the host has still to do and what it has been told. -/

namespace Sys2Proof.Machine

/-- R29: the controller's phase. -/
inductive Phase where
  /-- No PACK has been issued since reset. -/
  | idle
  /-- A PACK with a valid length is being carried out. -/
  | run
  /-- The last PACK has ended; `res` says how. -/
  | done
deriving DecidableEq, Repr

/-- R30: the result of a PACK; the codes are `Result.code`. -/
inductive Result where
  | ok
  | invalidLength
deriving DecidableEq, Repr

/-- A data space (R40, R43): `size` elements of `w` bits, indexed from 0. `cells` lists the elements that have a known value;
an index below `size` that is not listed has NO value (log 4): in IN an element nobody supplied (U11), in OUT a word whose
contents the spec does not fix (R43, R202). The canonical form is `Space.wf`. -/
structure Space (w : Nat) where
  size  : Nat
  cells : List (Nat × BitVec w)
deriving DecidableEq, Repr

/-- The canonical form: addresses strictly rising, all inside the space. Equal spaces are then equal data. -/
abbrev Space.wf {w : Nat} (m : Space w) : Prop :=
  (m.cells.map Prod.fst).Pairwise (· < ·) ∧ ∀ a ∈ m.cells.map Prod.fst, a < m.size

/-- The two host-visible registers (R32, R33). -/
inductive HostReg where
  /-- Register 0, write-only, `LW` bits. -/
  | cmdLen
  /-- Register 1, read-only, 3 bits. -/
  | status
deriving DecidableEq, Repr

/-- What the host does with its own two spaces (R203, R204): binding them (`.in`, `.out` of R85) and single accesses. -/
inductive BufferMove (p : Params) where
  | bindIn (elems : List (Scalar p.SW))
  | bindOut (cap : Nat) (fill : Option (PackedWord p.W))
  | writeIn (i : Nat) (e : Scalar p.SW)
  | readIn (i : Nat)
  | writeOut (j : Nat) (v : PackedWord p.W)
  | readOut (j : Nat)
deriving DecidableEq, Repr

/-- One thing the host (the other agent, R11) or the outside does next. -/
inductive HostMove (p : Params) where
  /-- `PACK <length>` of R85: the whole transaction, as the source's synchronous call. -/
  | pack (length : Nat)
  /-- A write of a register; to `CMD_LEN` it issues a PACK that the packer then carries out step by step. -/
  | writeReg (r : HostReg) (v : Nat)
  /-- A read of a register. -/
  | readReg (r : HostReg)
  /-- A move on IN or OUT. -/
  | buffer (m : BufferMove p)
  /-- The reset event, from outside the block (R200). -/
  | reset
  /-- The host leaves the next step to the packer. -/
  | yield
  /-- The host waits until `phase = DONE` (R203 step 5). -/
  | wait
deriving DecidableEq, Repr

/-- What a read gave the host. `none`: the word has no value the spec fixes. -/
inductive Answer (p : Params) where
  | status (v : StatusWord)
  | scalar (e : Option (Scalar p.SW))
  | word (v : Option (PackedWord p.W))
deriving DecidableEq, Repr

/-- One packer built with the parameters `p`, and its host.
`lsbAcc` to `res` are the whole of R20's tuple; `inSpace` and `outSpace` are the host's (R20). `agenda` and `answers` are
the MODEL's own (log 3, log 5): the host's coming moves, first one first, and what its reads gave it, last one first. -/
@[ext] structure System (p : Params) where
  lsbAcc   : PackedWord p.W
  msbAcc   : PackedWord p.W
  digit    : Nat
  idx      : Nat
  optr     : Nat
  len      : Nat
  phase    : Phase
  res      : Result
  inSpace  : Space p.SW
  outSpace : Space p.W
  agenda   : List (HostMove p)
  answers  : List (Answer p)
deriving DecidableEq, Repr

/-- The machine: the parameters it was built with, which no step changes (R5, log 1), and the system they build. -/
structure State where
  par : Params
  sys : System par
deriving DecidableEq, Repr

/-- How the model stops with a fault. -/
inductive Fault where
  /-- An access to IN at an index that does not exist (R54, R149): ACC in a state no run reaches, or a host access. Safe. -/
  | inIndexOutOfRange
  /-- An access to OUT at an index that does not exist (R54, R149): EMIT in a state no run reaches, or a host access. Safe. -/
  | outIndexOutOfRange
  /-- ACC or PACK reads an element of IN that was never given a value (R42, U11). Safe. -/
  | unwrittenElement
deriving DecidableEq, Repr

/-- How the model gives a situation no meaning. -/
inductive Refusal where
  /-- An operation with no meaning yet, rejected by name in `exec`'s arm. Safe. -/
  | notModelled (mnemonic : String)
  /-- A command while `phase = RUN` (R206, U5): PACK, START, or a write of `CMD_LEN`. Safe. -/
  | packWhileRunning
  /-- A length that `CMD_LEN` cannot hold (R5, U9): PACK, START. Safe. -/
  | lengthTooWide
  /-- A length, valid or not, that is not the number of elements of IN (R41, U10): PACK, START. Safe. -/
  | lengthMismatch
  /-- A valid length with `cap < NOUT` (R45, U1): PACK, START; before any write. Safe. -/
  | outTooSmall
  /-- A step the selector does not select (R82): ACC, EMIT, FINISH, or no step at all. Safe. -/
  | stepNotSelected
  /-- A read of `CMD_LEN`, which the spec does not define (R32). Safe. -/
  | cmdLenRead
  /-- The host touches IN while `phase = RUN` (R56, R207, U3). Safe. -/
  | inAccessWhileRunning
  /-- The host touches OUT while `phase = RUN` (R56, R208, U4). Safe. -/
  | outAccessWhileRunning
deriving DecidableEq, Repr

/-- A space of `size` elements none of which has a value. -/
def Space.blank (w size : Nat) : Space w := ⟨size, []⟩

/-- The state right after reset, for any parameters: R35's values; nothing bound to IN or OUT (they are the host's, R35),
no host move pending and none answered (log 8). -/
def State.resetOf (p : Params) : State where
  par := p
  sys := { lsbAcc := 0#p.W, msbAcc := 0#p.W, digit := 0, idx := 0, optr := 0, len := 0, phase := .idle, res := .ok,
           inSpace := Space.blank p.SW 0, outSpace := Space.blank p.W 0, agenda := [], answers := [] }

/-- R35, R200, for the parameters of `Config.params` (log 2). -/
def State.reset : State := State.resetOf Config.params

end Sys2Proof.Machine
end

