-- ==== Sys2Proof/Machine/Flags.lean ====
section
/-! DEFINITION. The predicates that select a step (spec/10_state.md R31, spec/30_encoding.md R82) and the `STATUS` word
(R33, R108). They are computed, never stored: no operation sets a flag. -/

namespace Sys2Proof.Machine

variable {p : Params}

/-- `run = (phase = RUN)` (R31). -/
def System.runFlag (c : System p) : Bool := decide (c.phase = .run)

/-- `full = (digit = W)` (R31). -/
def System.fullFlag (c : System p) : Bool := decide (c.digit = p.W)

/-- `last = (idx = len)` (R31). -/
def System.lastFlag (c : System p) : Bool := decide (c.idx = c.len)

/-- `sel[2:0] = {run, full, last}` (R82). -/
def System.selector (c : System p) : SelWord :=
  BitVec.ofBool c.runFlag ++ BitVec.ofBool c.fullFlag ++ BitVec.ofBool c.lastFlag

/-- ACC is selected: "phase = RUN and digit != W and idx != len" (spec/opcode_table.json, R82 row `1 0 0`). -/
abbrev System.accSelected (c : System p) : Prop := c.phase = .run ∧ c.digit ≠ p.W ∧ c.idx ≠ c.len

/-- EMIT is selected: "phase = RUN and digit = W" (R82 row `1 1 x`). -/
abbrev System.emitSelected (c : System p) : Prop := c.phase = .run ∧ c.digit = p.W

/-- FINISH is selected: "phase = RUN and digit != W and idx = len" (R82 row `1 0 1`). -/
abbrev System.finishSelected (c : System p) : Prop := c.phase = .run ∧ c.digit ≠ p.W ∧ c.idx = c.len

/-- `BUSY`: 1 when `phase = RUN` (R33). -/
def System.busyBit (c : System p) : Bool := decide (c.phase = .run)

/-- `DONE`: 1 when `phase = DONE` (R33). -/
def System.doneBit (c : System p) : Bool := decide (c.phase = .done)

/-- `ERR`: 1 when `phase = DONE` and `res = InvalidLength` (R33). -/
def System.errBit (c : System p) : Bool := decide (c.phase = .done ∧ c.res = .invalidLength)

/-- `STATUS = { ERR, DONE, BUSY }`, bits 2, 1, 0 (R33, R108); bits above 2 read as 0. -/
def System.statusWord (c : System p) : StatusWord :=
  BitVec.ofBool c.errBit ++ BitVec.ofBool c.doneBit ++ BitVec.ofBool c.busyBit

/-- R30: `OK` is code 0, `InvalidLength` is code 1. -/
def Result.code : Result → Nat
  | .ok => 0
  | .invalidLength => 1

/-- R32, R33: `CMD_LEN` is register 0, `STATUS` register 1. -/
def HostReg.number : HostReg → Nat
  | .cmdLen => 0
  | .status => 1

end Sys2Proof.Machine
end

