-- ==== Sys2Proof/Machine/Operands.lean ====
section
/-! DEFINITION. Plane extraction and placement: from a scalar in format Q to bits of a word in format P
(spec/30_encoding.md R70 to R77, spec/40_pack_command.md R101, R111). -/

namespace Sys2Proof.Machine

/-- `e[0]`, the LSB-plane bit (R75, R121); bits above bit 1 reach nothing. -/
def lsbOf {sw : Nat} (e : Scalar sw) : Bool := e.getLsbD 0

/-- `e[1]`, the MSB-plane bit (R75, R121). -/
def msbOf {sw : Nat} (e : Scalar sw) : Bool := e.getLsbD 1

/-- `zext_W(b) << digit` (R77, R122): the plane bit at position `digit`, zeros elsewhere. -/
def place (w : Nat) (b : Bool) (digit : Nat) : PackedWord w := (BitVec.ofBool b).setWidth w <<< digit

/-- R101 as a number: the sum over `k < n` of `f k * 2^k`. -/
def planeSum (f : Nat → Bool) : Nat → Nat
  | 0     => 0
  | n + 1 => planeSum f n + (f n).toNat * 2 ^ n

/-- The word whose bit `k` is `f k` (R71, R101), with no reference to how ACC builds it. -/
def planeWord (w : Nat) (f : Nat → Bool) : PackedWord w := BitVec.ofNat w (planeSum f w)

/-- R111: the same word as a fold of OR and shift over the positions `0 .. n-1`. -/
def planeFold (w : Nat) (f : Nat → Bool) (n : Nat) : PackedWord w :=
  (List.range n).foldl (fun acc k => acc ||| place w (f k) k) 0#w

end Sys2Proof.Machine
end

