-- ==== Sys2Proof/Machine/Ops.lean ====
section
/-! DEFINITION. The named operations over the two spaces and the registers, among them the report of the one error
(spec/20_memory.md, spec/60_exceptions.md R170 to R180). -/

namespace Sys2Proof.Machine

/-! ### Spaces -/

/-- The value listed at address `i`. -/
def cellsGet {w : Nat} : List (Nat × BitVec w) → Nat → Option (BitVec w)
  | [], _ => none
  | (j, u) :: rest, i => if i = j then some u else cellsGet rest i

/-- The list with `v` at address `i`, its addresses still rising. -/
def cellsPut {w : Nat} : List (Nat × BitVec w) → Nat → BitVec w → List (Nat × BitVec w)
  | [], i, v => [(i, v)]
  | (j, u) :: rest, i, v =>
    if i < j then (i, v) :: (j, u) :: rest
    else if i = j then (i, v) :: rest
    else (j, u) :: cellsPut rest i v

/-- The element at index `i` (R40, R44): `none` outside the space, and where nothing has given it a value. -/
def Space.read {w : Nat} (m : Space w) (i : Nat) : Option (BitVec w) :=
  if i < m.size then cellsGet m.cells i else none

/-- `OUT[j] <- v` (R44): replaces all bits of element `j`; indices outside the space are never written. -/
def Space.write {w : Nat} (m : Space w) (j : Nat) (v : BitVec w) : Space w :=
  if j < m.size then { m with cells := cellsPut m.cells j v } else m

/-- `elems` listed from address `n` on. -/
def cellsFrom {w : Nat} (n : Nat) : List (BitVec w) → List (Nat × BitVec w)
  | [] => []
  | e :: rest => (n, e) :: cellsFrom (n + 1) rest

/-- A space that holds the listed elements and carries their number as its size (R41; `.in` of R85). -/
def Space.ofList {w : Nat} (elems : List (BitVec w)) : Space w := ⟨elems.length, cellsFrom 0 elems⟩

/-- A space of `cap` elements, each `fill`, or each without a known value (`.out` of R85). -/
def Space.filled {w : Nat} (cap : Nat) : Option (BitVec w) → Space w
  | some v => ⟨cap, cellsFrom 0 (List.replicate cap v)⟩
  | none   => Space.blank w cap

/-- The elements below `n` lose their known values (R202). -/
def Space.forgetBelow {w : Nat} (m : Space w) (n : Nat) : Space w :=
  { m with cells := m.cells.filter (fun a => decide (n ≤ a.1)) }

/-- Every index below `n` has a value (R42). -/
def Space.complete {w : Nat} (m : Space w) (n : Nat) : Bool :=
  (List.range n).all (fun i => (m.read i).isSome)

/-- The element at `i`, for an index `Space.complete` covers (0 elsewhere, where no operation asks). -/
def Space.scalar {w : Nat} (m : Space w) (i : Nat) : BitVec w := (m.read i).getD 0#w

/-! ### The words of a block -/

/-- `lsbWord(b)` (R101): bit `k` is `IN[b*W + k][0]`. -/
def lsbWord (p : Params) (m : Space p.SW) (b : Nat) : PackedWord p.W :=
  planeWord p.W (fun k => lsbOf (m.scalar (b * p.W + k)))

/-- `msbWord(b)` (R101): bit `k` is `IN[b*W + k][1]`. -/
def msbWord (p : Params) (m : Space p.SW) (b : Nat) : PackedWord p.W :=
  planeWord p.W (fun k => msbOf (m.scalar (b * p.W + k)))

/-- `NOUT = 2 * (length / W)` (R45). -/
def nout (p : Params) (length : Nat) : Nat := 2 * (length / p.W)

/-- The writes of R100, blocks `0 .. q-1` ascending: `OUT[2b] <- lsbWord(b)`, `OUT[2b+1] <- msbWord(b)`. -/
def writeBlocks (p : Params) (m : Space p.SW) (out : Space p.W) : Nat → Space p.W
  | 0     => out
  | q + 1 => ((writeBlocks p m out q).write (2 * q) (lsbWord p m q)).write (2 * q + 1) (msbWord p m q)

/-! ### Registers -/

variable {p : Params}

/-- Accumulators and cursors at zero (R120). -/
def System.clearWork (c : System p) : System p :=
  { c with lsbAcc := 0#p.W, msbAcc := 0#p.W, digit := 0, idx := 0, optr := 0 }

/-- The end of a PACK: `phase <- DONE`, `res <- r` (R143, R100). -/
def System.finishWith (c : System p) (r : Result) : System p := { c with phase := .done, res := r }

/-- START with a valid length (R120). -/
def System.enterRun (c : System p) (length : Nat) : System p :=
  { c.clearWork with len := length, phase := .run, res := .ok }

/-- THE ONE ERROR, the only event of this block that a manual would call an exception: `InvalidLength` is a result, not a
trap (R171). It changes exactly this (R177): `len` takes the offending length, the working registers become zero,
`phase = DONE`, `res = InvalidLength`; no pc, no mode and no handler exist. There is no return from it (R179): the next
START or PACK overwrites `res`. -/
def System.reportInvalidLength (c : System p) (length : Nat) : System p :=
  { c.clearWork with len := length, phase := .done, res := .invalidLength }

/-- The end of a successful PACK (R100, R109), with OUT as it was left. -/
def System.completePack (c : System p) (length : Nat) (out : Space p.W) : System p :=
  { c with lsbAcc := 0#p.W, msbAcc := 0#p.W, digit := 0, idx := length, optr := nout p length, len := length,
           phase := .done, res := .ok, outSpace := out }

/-- ACC's writes for the scalar `e` it has read (R124). -/
def System.accumulate (c : System p) (e : Scalar p.SW) : System p :=
  { c with msbAcc := c.msbAcc ||| place p.W (msbOf e) c.digit,
           lsbAcc := c.lsbAcc ||| place p.W (lsbOf e) c.digit,
           digit := c.digit + 1,
           idx := c.idx + 1 }

/-- EMIT's writes (R140): the LSB-plane word at `optr`, the MSB-plane word at `optr + 1`, then a clean block. -/
def System.emitPair (c : System p) : System p :=
  { c with outSpace := (c.outSpace.write c.optr c.lsbAcc).write (c.optr + 1) c.msbAcc,
           optr := c.optr + 2,
           lsbAcc := 0#p.W, msbAcc := 0#p.W, digit := 0 }

/-- The host is given an answer. -/
def System.tell (c : System p) (a : Answer p) : System p := { c with answers := a :: c.answers }

/-- IN as the host leaves it. -/
def System.setIn (c : System p) (m : Space p.SW) : System p := { c with inSpace := m }

/-- OUT as the host leaves it. -/
def System.setOut (c : System p) (m : Space p.W) : System p := { c with outSpace := m }

/-- What the host has still to do. -/
def System.setAgenda (c : System p) (l : List (HostMove p)) : System p := { c with agenda := l }

/-- OUT after the reset event: it stays (R200), but a PACK abandoned in `RUN` leaves the words below its `NOUT` unknown
(R202, U6; log 9). -/
def System.outAfterReset (c : System p) : Space p.W :=
  if c.phase = .run then c.outSpace.forgetBelow (nout p c.len) else c.outSpace

/-- The reset event (R200): every register at R35's value; IN and what the host knows and plans stay. -/
def System.hardReset (c : System p) : System p :=
  { c.clearWork with len := 0, phase := .idle, res := .ok, outSpace := c.outAfterReset }

/-! ### The premises of a command -/

/-- Why a PACK has no meaning, if it has none: the premises NotRunning (R206, U5), `length < 2^LW` (U9) and InLength (R41, U10)
of every length (log 7), and CapOK (R45, U1) of a valid one only (R176). Asked before any access. -/
def System.commandRefusal (c : System p) (length : Nat) : Option Refusal :=
  if c.phase = .run then some .packWhileRunning
  else if 2 ^ p.LW ≤ length then some .lengthTooWide
  else if c.inSpace.size ≠ length then some .lengthMismatch
  else if length % p.W = 0 ∧ c.outSpace.size < nout p length then some .outTooSmall
  else none

/-- `IN[i]` (R44): the element, or the fault that says why there is none. -/
def System.readIn (c : System p) (i : Nat) : Except Fault (Scalar p.SW) :=
  if i < c.inSpace.size then
    match c.inSpace.read i with
    | some e => .ok e
    | none   => .error .unwrittenElement
  else .error .inIndexOutOfRange

/-- What a meaning over one system answers, as the machine's answer: the parameters stay (R5). -/
def inMachine (p : Params) : Host.Outcome (System p) Fault Refusal → Host.Outcome State Fault Refusal
  | .next c    => .next ⟨p, c⟩
  | .fault f   => .fault f
  | .refused f => .refused f

end Sys2Proof.Machine
end

