-- ==== Sys2Proof/Machine/Command.lean ====
section
/-! DEFINITION. The host's two operations: PACK at transaction level (spec/40_pack_command.md R100) and RDSTATUS (R108). -/

namespace Sys2Proof.Machine

variable {p : Params}

/-- PACK (R100, R109, R177) over one system: the length is checked before any access (R176). -/
def System.pack (c : System p) (length : Nat) : Host.Outcome (System p) Fault Refusal :=
  match c.commandRefusal length with
  | some r => .refused r
  | none =>
    if length % p.W ≠ 0 then .next (c.reportInvalidLength length)
    else if c.inSpace.complete length then
      .next (c.completePack length (writeBlocks p c.inSpace c.outSpace (length / p.W)))
    else .fault .unwrittenElement

/-- PACK (R100). -/
def execPack (length : Nat) (s : State) : Host.Outcome State Fault Refusal := inMachine s.par (s.sys.pack length)

/-- RDSTATUS (R108): the host is given `STATUS`; no register changes, in any phase. -/
def execRdstatus (s : State) : Host.Outcome State Fault Refusal :=
  inMachine s.par (.next (s.sys.tell (.status s.sys.statusWord)))

end Sys2Proof.Machine
end

