-- ==== Sys2Proof/Machine/Steps.lean ====
section
/-! DEFINITION. The packer's four steps: START (spec/41_plane_extract_accumulate.md R120), ACC (R124), EMIT
(spec/42_block_word_generation.md R140), FINISH (R143). A step the selector does not select has no meaning (R82). -/

namespace Sys2Proof.Machine

variable {p : Params}

/-- START (R120) over one system. The premises of the command are asked here, before any write (U1). -/
def System.startStep (c : System p) (length : Nat) : Host.Outcome (System p) Fault Refusal :=
  match c.commandRefusal length with
  | some r => .refused r
  | none =>
    if length % p.W ≠ 0 then .next (c.reportInvalidLength length) else .next (c.enterRun length)

/-- ACC (R124) over one system. -/
def System.accStep (c : System p) : Host.Outcome (System p) Fault Refusal :=
  if c.accSelected then
    match c.readIn c.idx with
    | .ok e    => .next (c.accumulate e)
    | .error f => .fault f
  else .refused .stepNotSelected

/-- EMIT (R140) over one system: both words in one step, or neither. -/
def System.emitStep (c : System p) : Host.Outcome (System p) Fault Refusal :=
  if c.emitSelected then
    if c.optr + 1 < c.outSpace.size then .next c.emitPair else .fault .outIndexOutOfRange
  else .refused .stepNotSelected

/-- FINISH (R143) over one system. -/
def System.finishStep (c : System p) : Host.Outcome (System p) Fault Refusal :=
  if c.finishSelected then .next (c.finishWith .ok) else .refused .stepNotSelected

/-- START (R120). -/
def execStart (length : Nat) (s : State) : Host.Outcome State Fault Refusal := inMachine s.par (s.sys.startStep length)

/-- ACC (R124). -/
def execAcc (s : State) : Host.Outcome State Fault Refusal := inMachine s.par s.sys.accStep

/-- EMIT (R140). -/
def execEmit (s : State) : Host.Outcome State Fault Refusal := inMachine s.par s.sys.emitStep

/-- FINISH (R143). -/
def execFinish (s : State) : Host.Outcome State Fault Refusal := inMachine s.par s.sys.finishStep

end Sys2Proof.Machine
end

