-- ==== Sys2Proof/Syntax.lean ====
section
/-! DEFINITION. The operations of spec/opcode_table.json, one constructor per row (spec/30_encoding.md R79), and the words
they are decoded from. -/

namespace Sys2Proof

/-- PP-OPS (R1, R79). `length` is a natural number (R10); that it fits `LW` bits is `Instr.wf`. -/
inductive Instr where
  /-- PACK (R100): the host's one command, at transaction level. -/
  | pack (length : Nat)
  /-- RDSTATUS (R108): the host's read of `STATUS`. -/
  | rdstatus
  /-- START (R120): the packer accepts a PACK; `length` comes from the command word. -/
  | start (length : Nat)
  /-- ACC (R124). -/
  | acc
  /-- EMIT (R140). -/
  | emit
  /-- FINISH (R143). -/
  | finish
deriving DecidableEq, Repr

/-- What the block is presented with, in place of an instruction word: it fetches none (R27). -/
inductive Request where
  /-- Format CMD (R73): the word written to `CMD_LEN`, seen at transaction level as one PACK. -/
  | cmd (word : Nat)
  /-- A read of register 1, `STATUS`; there is no command word (R108). -/
  | statusRead
  /-- Format SEL (R82): the selector vector, with the command word when a PACK is being issued. -/
  | sel (v : SelWord) (issued : Option Nat)
deriving DecidableEq, Repr

end Sys2Proof
end

