-- ==== Sys2Proof/Machine/Dispatch.lean ====
section
/-! DEFINITION. One arm per operation of spec/opcode_table.json. -/

namespace Sys2Proof.Machine

def exec (i : Instr) (s : State) : Host.Outcome State Fault Refusal :=
  match i with
  | .pack length => Sys2Proof.Machine.execPack length s
  | .rdstatus => Sys2Proof.Machine.execRdstatus s
  | .start length => Sys2Proof.Machine.execStart length s
  | .acc => Sys2Proof.Machine.execAcc s
  | .emit => Sys2Proof.Machine.execEmit s
  | .finish => Sys2Proof.Machine.execFinish s

end Sys2Proof.Machine
end

