-- ==== Sys2Proof/WellFormed.lean ====
section
/-! DEFINITION. Which operations can be written down: the one check is that a length fits `CMD_LEN` (R5, R32, U9). -/

namespace Sys2Proof

/-- `length < 2^LW` (R5, R100); no other operation has an operand (R24, R61). -/
def Instr.wf (p : Params) : Instr → Bool
  | .pack length  => decide (length < 2 ^ p.LW)
  | .rdstatus     => true
  | .start length => decide (length < 2 ^ p.LW)
  | .acc          => true
  | .emit         => true
  | .finish       => true

end Sys2Proof
end

