-- ==== Sys2Proof/Decode.lean ====
section
/-! DEFINITION. The decoder and the encoder: formats CMD and SEL and the step-selection table (spec/30_encoding.md R73, R79,
R82 to R84, spec/opcode_table.json). -/

namespace Sys2Proof

/-- Why a request is no operation. -/
inductive DecodeError where
  /-- The command word does not fit `CMD_LEN` (U9); safe. -/
  | lengthTooWide
  /-- A command word while `run = 1` (R206, U5); safe. -/
  | commandWhileRunning
  /-- Selector `0 x x` with no command: no step (R82); safe. -/
  | noStep
deriving DecidableEq, Repr

/-- The four steps, as the selection table names them. -/
inductive StepName where
  | start | acc | emit | finish
deriving DecidableEq, Repr

/-- One SEL row of spec/opcode_table.json: the step is selected when `sel &&& mask = pattern`. -/
structure SelRow where
  pattern : SelWord
  mask    : SelWord
  step    : StepName
deriving DecidableEq, Repr

/-- R82: "`ACC` match `0x4` mask `0x7`; `EMIT` match `0x6` mask `0x6`; `FINISH` match `0x5` mask `0x7`; `START` match `0x0`
mask `0x4` together with a `PACK` being issued". -/
def selTable : List SelRow :=
  [⟨0x0#3, 0x4#3, .start⟩, ⟨0x4#3, 0x7#3, .acc⟩, ⟨0x6#3, 0x6#3, .emit⟩, ⟨0x5#3, 0x7#3, .finish⟩]

def SelRow.hits (r : SelRow) (v : SelWord) : Bool := v &&& r.mask == r.pattern

/-- The step the table selects; `none` where no row matches (no such vector exists: R82). -/
def selectStep (v : SelWord) : Option StepName :=
  (selTable.find? (SelRow.hits · v)).map SelRow.step

/-- Decoding, total; every refusal has a name. Every `LW`-bit command word is a PACK (R83): there is no illegal one. -/
def decode (p : Params) : Request → Except DecodeError Instr
  | .cmd word => if word < 2 ^ p.LW then .ok (.pack word) else .error .lengthTooWide
  | .statusRead => .ok .rdstatus
  | .sel v issued =>
    match selectStep v, issued with
    | some .start, some word => if word < 2 ^ p.LW then .ok (.start word) else .error .lengthTooWide
    | some .start, none      => .error .noStep
    | some _, some _         => .error .commandWhileRunning
    | some .acc, none        => .ok .acc
    | some .emit, none       => .ok .emit
    | some .finish, none     => .ok .finish
    | none, _                => .error .noStep

/-- The words of an operation. EMIT's row leaves `last` free (`1 1 x`): `0b111` decodes to it as well. -/
def encode : Instr → Request
  | .pack length  => .cmd length
  | .rdstatus     => .statusRead
  | .start length => .sel 0b000#3 (some length)
  | .acc          => .sel 0b100#3 none
  | .emit         => .sel 0b110#3 none
  | .finish       => .sel 0b101#3 none

/-- DESIGN CHOICE (log 6): the table's formats number their bits from 0 each, so a bare number is told apart by how many bits
its row gives: one byte is format SEL (`sel[2:0]`; START's operand, the command word, counts on from bit 8), anything else
format CMD. A read of `STATUS` has no word, so no number stands for it. -/
def tableRequest (nbits w : Nat) : Request :=
  if nbits = 8 then
    let v : SelWord := BitVec.ofNat 3 w
    .sel v (if v.getLsbD 2 then none else some (w / 2 ^ 8))
  else .cmd w

/-- The operation the decoder reads from an opcode-table word, with the parameters of `Config.params`. -/
def decodeTableWord (nbits w : Nat) : Option Instr :=
  (decode Config.params (tableRequest nbits w)).toOption

end Sys2Proof
end

