-- ==== Sys2Proof/Machine/HostMoves.lean ====
section
/-! DEFINITION. The host's moves on its two spaces (spec/70_reset_and_hazards.md R203, R204, R207, R208). -/

namespace Sys2Proof.Machine

variable {p : Params}

/-- Outside `RUN` the host reads and writes IN and OUT freely (R204); in `RUN` it has no such move (R56, U3, U4). -/
def System.bufferMove (c : System p) : BufferMove p → Host.Outcome (System p) Fault Refusal
  | .bindIn elems =>
    if c.phase = .run then .refused .inAccessWhileRunning else .next (c.setIn (Space.ofList elems))
  | .bindOut cap fill =>
    if c.phase = .run then .refused .outAccessWhileRunning else .next (c.setOut (Space.filled cap fill))
  | .writeIn i e =>
    if c.phase = .run then .refused .inAccessWhileRunning
    else if i < c.inSpace.size then .next (c.setIn (c.inSpace.write i e)) else .fault .inIndexOutOfRange
  | .readIn i =>
    if c.phase = .run then .refused .inAccessWhileRunning
    else if i < c.inSpace.size then .next (c.tell (.scalar (c.inSpace.read i))) else .fault .inIndexOutOfRange
  | .writeOut j v =>
    if c.phase = .run then .refused .outAccessWhileRunning
    else if j < c.outSpace.size then .next (c.setOut (c.outSpace.write j v)) else .fault .outIndexOutOfRange
  | .readOut j =>
    if c.phase = .run then .refused .outAccessWhileRunning
    else if j < c.outSpace.size then .next (c.tell (.word (c.outSpace.read j))) else .fault .outIndexOutOfRange

end Sys2Proof.Machine
end

