-- ==== Sys2Proof/Machine/Fetch.lean ====
section
/-! DEFINITION. What happens next: which agent moves and what the block is presented with. The block fetches no instruction
(spec/10_state.md R27); the host's agenda stands where a program would. -/

namespace Sys2Proof.Machine

/-- What the next step is. -/
inductive Fetch (p : Params) where
  /-- An operation: the words to decode, and the system they run in. -/
  | request (r : Request) (c : System p)
  /-- A host move on its buffers. -/
  | buffer (m : BufferMove p) (c : System p)
  /-- No operation runs: an idle packer, an ignored write of `STATUS` (R33), the host's waiting, or the reset event. -/
  | quiet (c : System p)
  /-- The spec gives the move no meaning. -/
  | reject (r : Refusal)
deriving DecidableEq, Repr

variable {p : Params}

/-- The packer's own step (R82): the selector vector while `phase = RUN`, none otherwise. -/
def System.packerTurn (c : System p) : Fetch p :=
  if c.phase = .run then .request (.sel c.selector none) c else .quiet c

/-- The next move. The agenda is finite and then only the packer moves: an enabled step is always taken at last (R211). -/
def System.fetch (c : System p) : Fetch p :=
  match c.agenda with
  | [] => c.packerTurn
  | .yield :: rest => (c.setAgenda rest).packerTurn
  | .wait :: rest => if c.phase = .done then .quiet (c.setAgenda rest) else c.packerTurn
  | .pack length :: rest => .request (.cmd length) (c.setAgenda rest)
  | .writeReg .cmdLen v :: rest => .request (.sel c.selector (some v)) (c.setAgenda rest)
  | .writeReg .status _ :: rest => .quiet (c.setAgenda rest)
  | .readReg .status :: rest => .request .statusRead (c.setAgenda rest)
  | .readReg .cmdLen :: _ => .reject .cmdLenRead
  | .buffer m :: rest => .buffer m (c.setAgenda rest)
  | .reset :: rest => .quiet (c.setAgenda rest).hardReset

/-- The refusal a rejected request ends in. -/
def refusalOf : DecodeError → Refusal
  | .lengthTooWide       => .lengthTooWide
  | .commandWhileRunning => .packWhileRunning
  | .noStep              => .stepNotSelected

/-- The spaces a command of length `n` needs (R203 steps 1 to 3): IN of `n` elements, OUT of `NOUT` words; kept where they
fit already. -/
def System.provide (c : System p) (n : Nat) : System p :=
  { c with
      inSpace := if c.inSpace.size = n ∧ c.inSpace.complete n = true then c.inSpace
                 else Space.filled n (some 0#p.SW),
      outSpace := if nout p n ≤ c.outSpace.size then c.outSpace else Space.blank p.W (nout p n) }

/-- A system that presents the selector vector `v` next, in a run of one block or two (log 6). -/
def System.withSelector (c : System p) (v : SelWord) : System p :=
  let digit := if v.getLsbD 1 then p.W else 0
  let len := if v.getLsbD 0 then digit else digit + p.W
  { c with phase := if v.getLsbD 2 then .run else if c.phase = .run then .idle else c.phase,
           digit := digit, idx := digit, optr := 0, len := len }

/-- The system that is presented with `r` next: the host's move at the head of the agenda, and all that running it needs. -/
def System.withRequest (c : System p) : Request → System p
  | .statusRead => c.setAgenda (.readReg .status :: c.agenda)
  | .cmd n =>
    { (c.provide n).setAgenda (.pack n :: c.agenda) with phase := if c.phase = .run then .idle else c.phase }
  | .sel v (some n) => ((c.provide n).withSelector v).setAgenda (.writeReg .cmdLen n :: c.agenda)
  | .sel v none =>
    let t := c.withSelector v
    (t.provide t.len).setAgenda (.yield :: c.agenda)

end Sys2Proof.Machine
end

