-- ==== Sys2Proof/Machine/Step.lean ====
section
/-! DEFINITION. One indivisible step (spec/00_scope.md R9) of the packer or of its host, as the agenda says. -/

namespace Sys2Proof.Machine

/-- What the next move is, then its meaning. -/
def step (s : State) : Host.Outcome State Fault Refusal :=
  match s.sys.fetch with
  | .request r c =>
    match decode s.par r with
    | .ok i    => exec i ⟨s.par, c⟩
    | .error e => .refused (refusalOf e)
  | .buffer m c => inMachine s.par (c.bufferMove m)
  | .quiet c    => .next ⟨s.par, c⟩
  | .reject r   => .refused r

/-- The opcode-table word `w` placed so that the next step runs it (log 6). -/
def State.withFetchWord (s : State) (nbits w : Nat) : State :=
  ⟨s.par, s.sys.withRequest (tableRequest nbits w)⟩

end Sys2Proof.Machine
end

