-- ==== Sys2Proof/Machine/Packers.lean ====
section
/-! DEFINITION. Several packers side by side (spec/60_exceptions.md R184): each is a whole machine with its own state and
its own IN and OUT, possibly with other parameters; they share nothing. -/

namespace Sys2Proof.Machine

/-- Packer `k` of the list takes one step; a number that names no packer changes nothing. -/
def stepPacker (k : Nat) (f : List State) : Host.Outcome (List State) Fault Refusal :=
  match f[k]? with
  | none => .next f
  | some s =>
    match step s with
    | .next t    => .next (f.set k t)
    | .fault r   => .fault r
    | .refused r => .refused r

/-- Their steps in the order a schedule gives: "Their steps may interleave in any order" (R184). -/
def runSchedule : List Nat → List State → Host.Outcome (List State) Fault Refusal
  | [], f => .next f
  | k :: rest, f =>
    match stepPacker k f with
    | .next g    => runSchedule rest g
    | .fault r   => .fault r
    | .refused r => .refused r

end Sys2Proof.Machine
end

