-- ==== Sys2Proof/Safety.lean ====
section
/-! DEFINITION. The terms statements are made in: the premises of spec/70_reset_and_hazards.md R204, the invariant of
spec/42_block_word_generation.md R148, and the moves of spec/10_state.md R29. -/

namespace Sys2Proof.Machine

variable {p : Params}

/-- NotRunning, `length < 2^LW`, InLength with every element given a value (R42), and CapOK: the premises R204 names for a
`PACK length` with a valid length. `Disjoint` and `HostQuiet` hold by construction (R55, R204). -/
structure System.Ready (c : System p) (length : Nat) : Prop where
  notRunning : c.phase ≠ .run
  fits       : length < 2 ^ p.LW
  inLength   : c.inSpace.size = length
  elements   : ∀ i < length, (c.inSpace.read i).isSome = true
  capOk      : nout p length ≤ c.outSpace.size

/-- R148 for `phase = RUN`, with `b = optr / 2`; its clause "holds what it held before the PACK" is about two states and is
stated apart. -/
structure System.RunInv (c : System p) : Prop where
  lenValid   : c.len % p.W = 0
  lenFits    : c.len < 2 ^ p.LW
  inLength   : c.inSpace.size = c.len
  capOk      : nout p c.len ≤ c.outSpace.size
  digitLe    : c.digit ≤ p.W
  optrEven   : c.optr % 2 = 0
  idxEq      : c.idx = c.optr / 2 * p.W + c.digit
  idxLe      : c.idx ≤ c.len
  lsbBelow   : ∀ k < c.digit, c.lsbAcc.getLsbD k = lsbOf (c.inSpace.scalar (c.optr / 2 * p.W + k))
  msbBelow   : ∀ k < c.digit, c.msbAcc.getLsbD k = msbOf (c.inSpace.scalar (c.optr / 2 * p.W + k))
  lsbAbove   : ∀ k < p.W, c.digit ≤ k → c.lsbAcc.getLsbD k = false
  msbAbove   : ∀ k < p.W, c.digit ≤ k → c.msbAcc.getLsbD k = false
  blocksDone : ∀ b < c.optr / 2, c.outSpace.read (2 * b) = some (lsbWord p c.inSpace b) ∧
                 c.outSpace.read (2 * b + 1) = some (msbWord p c.inSpace b)
  optrLe     : c.optr ≤ nout p c.len
  roomAtFull : c.digit = p.W → c.optr + 2 ≤ nout p c.len
  resOk      : c.res = .ok

/-- The invariant of the whole machine: both spaces canonical, R148 while running, and `res` saying how the last PACK ended
(R30, R170). -/
structure System.Inv (c : System p) : Prop where
  inWf   : c.inSpace.wf
  outWf  : c.outSpace.wf
  run    : c.phase = .run → c.RunInv
  done   : c.phase = .done → (c.res = .invalidLength ↔ c.len % p.W ≠ 0)
  idle   : c.phase = .idle → c.res = .ok

/-- The whole-machine form of `System.Inv`. -/
def State.Inv (s : State) : Prop := s.sys.Inv

/-- The moves of `phase` an operation may make (R29). -/
def phaseMove : Phase → Phase → Bool
  | .idle, .idle => true
  | .idle, .run  => true
  | .idle, .done => true
  | .run, .run   => true
  | .run, .done  => true
  | .done, .done => true
  | .done, .run  => true
  | .run, .idle  => false
  | .done, .idle => false

/-- Two spaces that agree on the bits the spec gives a meaning: `e[1:0]` of every element below `n` (R70, R107). -/
def planesAgree {w : Nat} (m m' : Space w) (n : Nat) : Prop :=
  ∀ i < n, lsbOf (m.scalar i) = lsbOf (m'.scalar i) ∧ msbOf (m.scalar i) = msbOf (m'.scalar i)

/-- Elements left to read and blocks left to emit, and the FINISH: the steps a run still takes (R146, R210). -/
def System.stepsLeft (c : System p) : Nat := (c.len - c.idx) + (c.len / p.W - c.optr / 2) + 1

end Sys2Proof.Machine
end

