-- ==== Sys2Proof/Certificates/Slice0/Obligations.lean ====
section
/-! DEFINITION. The statements for the provers. All are about every choice of the parameters `W`, `SW`, `LW` (R5). -/

open Sys2Proof Sys2Proof.Machine

/-! ### The operations -/

/-- R120. A START with the premises of R204: an invalid length is reported, a valid one enters `RUN`; every register is
written as the rule says, IN and OUT are not touched. -/
def Obligations.StartChecksTheLengthAndClears : Prop :=
  ∀ (p : Params) (c : System p) (n : Nat), c.phase ≠ .run → n < 2 ^ p.LW → c.inSpace.size = n →
    (n % p.W ≠ 0 → exec (.start n) ⟨p, c⟩ = .next ⟨p, { c with
      len := n, lsbAcc := 0#p.W, msbAcc := 0#p.W, digit := 0, idx := 0, optr := 0,
      phase := .done, res := .invalidLength }⟩) ∧
    (n % p.W = 0 → 2 * (n / p.W) ≤ c.outSpace.size → exec (.start n) ⟨p, c⟩ = .next ⟨p, { c with
      len := n, lsbAcc := 0#p.W, msbAcc := 0#p.W, digit := 0, idx := 0, optr := 0,
      phase := .run, res := .ok }⟩)

/-- R124. ACC reads `IN[idx]`, ORs its two plane bits in at position `digit` and advances both cursors; nothing else
changes, OUT and IN among it. -/
def Obligations.AccReadsPlacesAndAdvances : Prop :=
  ∀ (p : Params) (c : System p) (e : Scalar p.SW),
    c.phase = .run → c.digit < p.W → c.idx < c.len → c.inSpace.read c.idx = some e →
    exec .acc ⟨p, c⟩ = .next ⟨p, { c with
      msbAcc := c.msbAcc ||| ((BitVec.ofBool (e.getLsbD 1)).setWidth p.W <<< c.digit),
      lsbAcc := c.lsbAcc ||| ((BitVec.ofBool (e.getLsbD 0)).setWidth p.W <<< c.digit),
      digit := c.digit + 1, idx := c.idx + 1 }⟩

/-- R78. Where bit `digit` of both accumulators is zero, ORing the plane bit in is setting that bit to it: it becomes the
plane bit, whichever it is, and every other bit stays. -/
def Obligations.AccSetsTheBitAtDigit : Prop :=
  ∀ (p : Params) (c : System p) (e : Scalar p.SW),
    c.phase = .run → c.digit < p.W → c.idx < c.len → c.inSpace.read c.idx = some e →
    c.lsbAcc.getLsbD c.digit = false → c.msbAcc.getLsbD c.digit = false →
    ∃ d : System p, exec .acc ⟨p, c⟩ = .next ⟨p, d⟩ ∧ ∀ k < p.W,
      d.lsbAcc.getLsbD k = (if k = c.digit then e.getLsbD 0 else c.lsbAcc.getLsbD k) ∧
      d.msbAcc.getLsbD k = (if k = c.digit then e.getLsbD 1 else c.msbAcc.getLsbD k)

/-- R123. In any state, an ACC that answers clears no bit of an accumulator and touches no bit but bit `digit`. -/
def Obligations.AccNeverClearsABit : Prop :=
  ∀ (p : Params) (c d : System p), exec .acc ⟨p, c⟩ = .next ⟨p, d⟩ → ∀ k < p.W,
    (c.lsbAcc.getLsbD k = true → d.lsbAcc.getLsbD k = true) ∧
    (c.msbAcc.getLsbD k = true → d.msbAcc.getLsbD k = true) ∧
    (k ≠ c.digit → d.lsbAcc.getLsbD k = c.lsbAcc.getLsbD k ∧ d.msbAcc.getLsbD k = c.msbAcc.getLsbD k)

/-- R140. EMIT stores the LSB-plane word at `optr` and the MSB-plane word at `optr + 1`, both in one step, moves `optr` by 2
and clears the block; every other word of OUT reads as before and nothing else changes. -/
def Obligations.EmitAppendsThePairAndClears : Prop :=
  ∀ (p : Params) (c : System p), c.phase = .run → c.digit = p.W → c.optr + 1 < c.outSpace.size →
    ∃ out : Space p.W, exec .emit ⟨p, c⟩ = .next ⟨p, { c with
        outSpace := out, optr := c.optr + 2, lsbAcc := 0#p.W, msbAcc := 0#p.W, digit := 0 }⟩ ∧
      out.size = c.outSpace.size ∧
      out.read c.optr = some c.lsbAcc ∧ out.read (c.optr + 1) = some c.msbAcc ∧
      ∀ j, j ≠ c.optr → j ≠ c.optr + 1 → out.read j = c.outSpace.read j

/-- R143. FINISH reports success and changes nothing else. -/
def Obligations.FinishReportsSuccess : Prop :=
  ∀ (p : Params) (c : System p), c.phase = .run → c.digit ≠ p.W → c.idx = c.len →
    exec .finish ⟨p, c⟩ = .next ⟨p, { c with phase := .done, res := .ok }⟩

/-- R108. RDSTATUS, in every state, gives the host `{ ERR, DONE, BUSY }` and writes no register, no space
(where the answer is kept is the model's, log 5). -/
def Obligations.RdstatusAnswersErrDoneBusy : Prop :=
  ∀ (p : Params) (c : System p), ∃ v : StatusWord,
    exec .rdstatus ⟨p, c⟩ = .next ⟨p, { c with answers := .status v :: c.answers }⟩ ∧
    (v.getLsbD 0 = true ↔ c.phase = .run) ∧
    (v.getLsbD 1 = true ↔ c.phase = .done) ∧
    (v.getLsbD 2 = true ↔ c.phase = .done ∧ c.res = .invalidLength)

/-- R177. A PACK of an invalid length changes exactly the report and the working registers; IN and OUT stay. -/
def Obligations.InvalidPackChangesOnlyTheReport : Prop :=
  ∀ (p : Params) (c : System p) (n : Nat), c.phase ≠ .run → n < 2 ^ p.LW → c.inSpace.size = n → n % p.W ≠ 0 →
    exec (.pack n) ⟨p, c⟩ = .next ⟨p, { c with
      phase := .done, res := .invalidLength, len := n,
      lsbAcc := 0#p.W, msbAcc := 0#p.W, digit := 0, idx := 0, optr := 0 }⟩

/-- R46, R48, R102, R109. A PACK of a valid length with R204's premises: every register as R109 says; word `2b` is the
LSB-plane word and word `2b + 1` the MSB-plane word of block `b`, bit `k` from element `b*W + k`; every other word and the
whole of IN stay. -/
def Obligations.PackWritesThePlaneWords : Prop :=
  ∀ (p : Params) (c : System p) (n : Nat), c.Ready n → n % p.W = 0 →
    ∃ out : Space p.W, exec (.pack n) ⟨p, c⟩ = .next ⟨p, { c with
        phase := .done, res := .ok, len := n, lsbAcc := 0#p.W, msbAcc := 0#p.W, digit := 0, idx := n,
        optr := 2 * (n / p.W), outSpace := out }⟩ ∧
      out.size = c.outSpace.size ∧
      (∀ b < n / p.W, ∃ l m : PackedWord p.W,
        out.read (2 * b) = some l ∧ out.read (2 * b + 1) = some m ∧
        ∀ k < p.W, ∃ e, c.inSpace.read (b * p.W + k) = some e ∧
          l.getLsbD k = e.getLsbD 0 ∧ m.getLsbD k = e.getLsbD 1) ∧
      ∀ j, 2 * (n / p.W) ≤ j → out.read j = c.outSpace.read j

/-- R72, the source's reconstruction property: bit `i mod W` of word `2 * (i / W)` is bit 0 of `IN[i]`, and of the word
after it bit 1. -/
def Obligations.PackedWordsReconstructTheScalars : Prop :=
  ∀ (p : Params) (c : System p) (n : Nat), c.Ready n → n % p.W = 0 →
    ∃ d : System p, exec (.pack n) ⟨p, c⟩ = .next ⟨p, d⟩ ∧
      ∀ i < n, ∃ e l m, c.inSpace.read i = some e ∧
        d.outSpace.read (2 * (i / p.W)) = some l ∧ d.outSpace.read (2 * (i / p.W) + 1) = some m ∧
        l.getLsbD (i % p.W) = e.getLsbD 0 ∧ m.getLsbD (i % p.W) = e.getLsbD 1

/-- R104. `PACK 0` ends well for every `W` and every OUT; no element is read and no word is written. -/
def Obligations.PackOfNothingIsValid : Prop :=
  ∀ (p : Params) (c : System p), c.phase ≠ .run → c.inSpace.size = 0 →
    exec (.pack 0) ⟨p, c⟩ = .next ⟨p, { c with
      phase := .done, res := .ok, len := 0, lsbAcc := 0#p.W, msbAcc := 0#p.W, digit := 0, idx := 0, optr := 0 }⟩

/-- R106. With `W = 1` no length is invalid, and every element is a block of its own. -/
def Obligations.WidthOneIsNeverInvalid : Prop :=
  ∀ (p : Params) (c : System p) (n : Nat), p.W = 1 → c.Ready n →
    ∃ d : System p, exec (.pack n) ⟨p, c⟩ = .next ⟨p, d⟩ ∧ d.res = .ok ∧
      ∀ i < n, ∃ e l m, c.inSpace.read i = some e ∧
        d.outSpace.read (2 * i) = some l ∧ d.outSpace.read (2 * i + 1) = some m ∧
        l.getLsbD 0 = e.getLsbD 0 ∧ m.getLsbD 0 = e.getLsbD 1

/-! ### What a PACK depends on -/

/-- R103, R107. Of two successful PACKs of one length, the first `NOUT` words are the same exactly when bits 1 and 0 of all
elements are the same: nothing of them is lost and nothing else matters. -/
def Obligations.OutputsAgreeExactlyWhenPlanesAgree : Prop :=
  ∀ (p : Params) (c c' : System p) (n : Nat), c.Ready n → c'.Ready n → n % p.W = 0 →
    ∃ d d' : System p, exec (.pack n) ⟨p, c⟩ = .next ⟨p, d⟩ ∧ exec (.pack n) ⟨p, c'⟩ = .next ⟨p, d'⟩ ∧
      ((∀ j < 2 * (n / p.W), d.outSpace.read j = d'.outSpace.read j) ↔ planesAgree c.inSpace c'.inSpace n)

/-- R34, R201. PACK and START do not see the registers a command before them left: with the same spaces, and neither
running, they answer the same, a refusal or a fault included. -/
def Obligations.CommandsSeeNoEarlierRegister : Prop :=
  ∀ (p : Params) (c c' : System p) (n : Nat), c.phase ≠ .run → c'.phase ≠ .run →
    c.inSpace = c'.inSpace → c.outSpace = c'.outSpace → c.agenda = c'.agenda → c.answers = c'.answers →
    exec (.pack n) ⟨p, c⟩ = exec (.pack n) ⟨p, c'⟩ ∧ exec (.start n) ⟨p, c⟩ = exec (.start n) ⟨p, c'⟩

/-- R107. The same PACK twice leaves what it left once, bit for bit (OUT in the model's canonical form, log 4). -/
def Obligations.PackTwiceIsPackOnce : Prop :=
  ∀ (p : Params) (c : System p) (n : Nat), c.Ready n → c.outSpace.wf → n % p.W = 0 →
    ∃ d : System p, exec (.pack n) ⟨p, c⟩ = .next ⟨p, d⟩ ∧ exec (.pack n) ⟨p, d⟩ = .next ⟨p, d⟩

/-- R179. After a failed PACK the status reads `0b110`, reading it changes no register, and the next PACK does what it would
have done without the failure. -/
def Obligations.FailedPackLeavesOnlyItsReport : Prop :=
  ∀ (p : Params) (c : System p) (n : Nat), c.phase ≠ .run → n < 2 ^ p.LW → c.inSpace.size = n → n % p.W ≠ 0 →
    ∃ d : System p, exec (.pack n) ⟨p, c⟩ = .next ⟨p, d⟩ ∧
      exec .rdstatus ⟨p, d⟩ = .next ⟨p, { d with answers := .status 0b110#3 :: d.answers }⟩ ∧
      ∀ m, exec (.pack m) ⟨p, d⟩ = exec (.pack m) ⟨p, c⟩

/-- R170, R176, with U10 (log 7): an invalid length that is the size of IN is reported whatever OUT is and whatever elements of
IN have no value; one that is not is refused; both by PACK and START alike. -/
def Obligations.InvalidLengthAsksNothingOfOut : Prop :=
  ∀ (p : Params) (c : System p) (n : Nat), c.phase ≠ .run → n < 2 ^ p.LW → n % p.W ≠ 0 →
    (c.inSpace.size = n →
      exec (.pack n) ⟨p, c⟩ = .next ⟨p, c.reportInvalidLength n⟩ ∧
      exec (.start n) ⟨p, c⟩ = .next ⟨p, c.reportInvalidLength n⟩) ∧
    (c.inSpace.size ≠ n →
      exec (.pack n) ⟨p, c⟩ = .refused .lengthMismatch ∧ exec (.start n) ⟨p, c⟩ = .refused .lengthMismatch)

/-- U1, U5, U9, U10: where a command has no meaning it is refused by name, at transaction level and at step level alike
(log 12). -/
def Obligations.CommandWithoutItsPremisesIsRefused : Prop :=
  ∀ (p : Params) (c : System p) (n : Nat),
    (c.phase = .run →
      exec (.pack n) ⟨p, c⟩ = .refused .packWhileRunning ∧ exec (.start n) ⟨p, c⟩ = .refused .packWhileRunning) ∧
    (c.phase ≠ .run → 2 ^ p.LW ≤ n →
      exec (.pack n) ⟨p, c⟩ = .refused .lengthTooWide ∧ exec (.start n) ⟨p, c⟩ = .refused .lengthTooWide) ∧
    (c.phase ≠ .run → n < 2 ^ p.LW → c.inSpace.size ≠ n →
      exec (.pack n) ⟨p, c⟩ = .refused .lengthMismatch ∧ exec (.start n) ⟨p, c⟩ = .refused .lengthMismatch) ∧
    (c.phase ≠ .run → n < 2 ^ p.LW → n % p.W = 0 → c.inSpace.size = n → c.outSpace.size < 2 * (n / p.W) →
      exec (.pack n) ⟨p, c⟩ = .refused .outTooSmall ∧ exec (.start n) ⟨p, c⟩ = .refused .outTooSmall)

/-- U11: an element of IN that was never given a value faults, in ACC when it is read and in PACK before any write
(log 4). -/
def Obligations.UnwrittenElementFaults : Prop :=
  ∀ (p : Params) (c : System p) (i : Nat), i < c.inSpace.size → c.inSpace.read i = none →
    (c.phase = .run → c.digit < p.W → c.idx = i → i < c.len → exec .acc ⟨p, c⟩ = .fault .unwrittenElement) ∧
    (c.phase ≠ .run → c.inSpace.size < 2 ^ p.LW → c.inSpace.size % p.W = 0 →
      2 * (c.inSpace.size / p.W) ≤ c.outSpace.size →
      exec (.pack c.inSpace.size) ⟨p, c⟩ = .fault .unwrittenElement)

/-! ### Frames over all operations -/

/-- R40, R43, R140. No operation writes IN or changes the size of OUT; only EMIT and PACK write OUT; only RDSTATUS answers the
host; none touches what the host has still to do, nor the parameters. -/
def Obligations.OperationsTouchOnlyWhatIsTheirs : Prop :=
  ∀ (p : Params) (c : System p) (i : Instr) (t : State), exec i ⟨p, c⟩ = .next t →
    ∃ d : System p, t = ⟨p, d⟩ ∧ d.inSpace = c.inSpace ∧ d.outSpace.size = c.outSpace.size ∧ d.agenda = c.agenda ∧
      (i ≠ .rdstatus → d.answers = c.answers) ∧
      (i ≠ .emit → (∀ n, i ≠ .pack n) → d.outSpace = c.outSpace)

/-- R29. No operation but FINISH leaves `RUN`, it leaves it for `DONE`, and no operation goes back to `IDLE`. -/
def Obligations.OnlyFinishLeavesRun : Prop :=
  ∀ (p : Params) (c d : System p) (i : Instr), exec i ⟨p, c⟩ = .next ⟨p, d⟩ →
    phaseMove c.phase d.phase = true ∧
    (c.phase = .run → d.phase = .run ∨ (i = .finish ∧ d.phase = .done))

/-- R144. "the data never steers control": two systems with the same phase, result, cursors and length, whatever their scalars,
accumulators and words, have the same again after the same operation. -/
def Obligations.DataNeverSteersControl : Prop :=
  ∀ (p : Params) (c c' d d' : System p) (i : Instr),
    c.phase = c'.phase → c.res = c'.res → c.digit = c'.digit → c.idx = c'.idx → c.optr = c'.optr → c.len = c'.len →
    exec i ⟨p, c⟩ = .next ⟨p, d⟩ → exec i ⟨p, c'⟩ = .next ⟨p, d'⟩ →
    d.phase = d'.phase ∧ d.res = d'.res ∧ d.digit = d'.digit ∧ d.idx = d'.idx ∧ d.optr = d'.optr ∧ d.len = d'.len ∧
      d.selector = d'.selector

/-! ### Selection, fetch and encoding -/

/-- R82. In `RUN` exactly one step is selected, by `full` and `last`, EMIT before FINISH; outside `RUN` none is; and every
selector vector hits exactly one row of the table. -/
def Obligations.SelectorSelectsOneStep : Prop :=
  (∀ (p : Params) (c : System p),
    (c.phase = .run → c.digit = p.W → decode p (.sel c.selector none) = .ok .emit) ∧
    (c.phase = .run → c.digit ≠ p.W → c.idx = c.len → decode p (.sel c.selector none) = .ok .finish) ∧
    (c.phase = .run → c.digit ≠ p.W → c.idx ≠ c.len → decode p (.sel c.selector none) = .ok .acc) ∧
    (c.phase ≠ .run → decode p (.sel c.selector none) = .error .noStep)) ∧
  ∀ v : SelWord, (selTable.filter (SelRow.hits · v)).length = 1

/-- R145, with the model's refusal of log 14: ACC, EMIT and FINISH are refused as not selected exactly where the selector does
not decode to them, so in `RUN` exactly one of the three has its effect. -/
def Obligations.StepIsRefusedExactlyWhenNotSelected : Prop :=
  ∀ (p : Params) (c : System p) (i : Instr), i = .acc ∨ i = .emit ∨ i = .finish →
    (exec i ⟨p, c⟩ = .refused .stepNotSelected ↔ decode p (.sel c.selector none) ≠ .ok i)

/-- A step runs the operation its fetch presents, in the system the fetch leaves: the packer's own step while `RUN` with
nothing pending or at the host's `yield`, and the host's PACK, its write of `CMD_LEN` and its read of `STATUS`, each taken
off the agenda first (the agenda is the model's, log 3). -/
def Obligations.StepRunsTheDecodedOperation : Prop :=
  ∀ (p : Params) (c : System p) (rest : List (HostMove p)) (n : Nat) (i : Instr),
    (∀ (r : Request) (c' : System p), c.fetch = .request r c' → decode p r = .ok i →
      step ⟨p, c⟩ = exec i ⟨p, c'⟩) ∧
    (c.phase = .run → c.agenda = [] → decode p (.sel c.selector none) = .ok i →
      step ⟨p, c⟩ = exec i ⟨p, c⟩) ∧
    (c.phase = .run → decode p (.sel c.selector none) = .ok i →
      step ⟨p, { c with agenda := .yield :: rest }⟩ = exec i ⟨p, { c with agenda := rest }⟩) ∧
    (n < 2 ^ p.LW →
      step ⟨p, { c with agenda := .pack n :: rest }⟩ = exec (.pack n) ⟨p, { c with agenda := rest }⟩) ∧
    (c.phase ≠ .run → n < 2 ^ p.LW →
      step ⟨p, { c with agenda := .writeReg .cmdLen n :: rest }⟩ = exec (.start n) ⟨p, { c with agenda := rest }⟩) ∧
    (step ⟨p, { c with agenda := .readReg .status :: rest }⟩ = exec .rdstatus ⟨p, { c with agenda := rest }⟩)

/-- Decode and encode agree: every well-formed operation's words decode to it. -/
def Obligations.EncodedOperationDecodesToItself : Prop :=
  ∀ (p : Params) (i : Instr), i.wf p = true → decode p (encode i) = .ok i

/-- The other direction: what decodes to an operation is its encoding, but for the selector bits its table row leaves free
(EMIT: `1 1 x`; START: `0 x x`), and what decodes is well formed. -/
def Obligations.DecodedWordsAreTheEncoding : Prop :=
  ∀ (p : Params) (r : Request) (i : Instr), decode p r = .ok i →
    i.wf p = true ∧
    (r = encode i ∨ (i = .emit ∧ r = .sel 0b111#3 none) ∨
      ∃ n v, i = .start n ∧ r = .sel v (some n) ∧ v.getLsbD 2 = false)

/-- Words of spec/opcode_table.json, written out from its match and mask columns, and a command word of each kind R83 names
(the parameters are the model's, log 2, and so is telling the formats apart by width, log 6). -/
def Obligations.TableWordsDecode : Prop :=
  decodeTableWord 8 0x4 = some .acc ∧ decodeTableWord 8 0x6 = some .emit ∧ decodeTableWord 8 0x7 = some .emit ∧
  decodeTableWord 8 0x5 = some .finish ∧ decodeTableWord 8 0x0 = some (.start 0) ∧
  decodeTableWord 32 0x8 = some (.pack 8) ∧ decodeTableWord 32 0x5 = some (.pack 5)

/-! ### Reset, the host interface, building a block -/

/-- R35, R200. The reset event outside `RUN` puts every register at its reset value and touches neither IN nor OUT; the status
is then `0b000`; and `State.resetOf` holds the same register values, for every choice of the parameters. -/
def Obligations.ResetPutsEveryRegister : Prop :=
  ∀ (p : Params) (c : System p) (rest : List (HostMove p)),
    (c.phase ≠ .run →
      step ⟨p, { c with agenda := .reset :: rest }⟩ = .next ⟨p, { c with
        agenda := rest, phase := .idle, res := .ok, lsbAcc := 0#p.W, msbAcc := 0#p.W, digit := 0, idx := 0, optr := 0,
        len := 0 }⟩) ∧
    (∃ d : System p, State.resetOf p = ⟨p, d⟩ ∧ d.phase = .idle ∧ d.res = .ok ∧ d.lsbAcc = 0#p.W ∧ d.msbAcc = 0#p.W ∧
      d.digit = 0 ∧ d.idx = 0 ∧ d.optr = 0 ∧ d.len = 0 ∧ d.statusWord = 0b000#3)

/-- R202, with the model's choice of log 9: a reset in `RUN` abandons the PACK; the words of OUT below its `NOUT` have no known
value afterwards, the words from there on and the whole of IN stay, no result is reported. -/
def Obligations.ResetWhileRunningForgetsOut : Prop :=
  ∀ (p : Params) (c : System p) (rest : List (HostMove p)), c.phase = .run →
    ∃ out : Space p.W, step ⟨p, { c with agenda := .reset :: rest }⟩ = .next ⟨p, { c with
        agenda := rest, phase := .idle, res := .ok, lsbAcc := 0#p.W, msbAcc := 0#p.W, digit := 0, idx := 0, optr := 0,
        len := 0, outSpace := out }⟩ ∧
      out.size = c.outSpace.size ∧
      (∀ j < 2 * (c.len / p.W), out.read j = none) ∧
      ∀ j, 2 * (c.len / p.W) ≤ j → out.read j = c.outSpace.read j

/-- R33. `STATUS` takes four values, is 0 exactly in `IDLE`, and a write of it is ignored. -/
def Obligations.StatusTakesFourValues : Prop :=
  ∀ (p : Params) (c : System p) (v : Nat) (rest : List (HostMove p)),
    c.statusWord ∈ [0b000#3, 0b001#3, 0b010#3, 0b110#3] ∧
    (c.statusWord = 0b000#3 ↔ c.phase = .idle) ∧
    step ⟨p, { c with agenda := .writeReg .status v :: rest }⟩ = .next ⟨p, { c with agenda := rest }⟩

/-- R56, R203, R204, R207, R208. Outside `RUN` the host writes a word of OUT and an element of IN, each where it says and
nowhere else, reads one of either, and binds an IN of given elements and an OUT of given capacity; nothing else changes, the
sizes of the spaces among it. In `RUN` it has none of these moves (refused, log 18). The moves are taken off the agenda
(log 3), answers go to the list (log 5), and an element without a known value answers `none` (log 4). -/
def Obligations.HostAccessesOnlyOutsideRun : Prop :=
  ∀ (p : Params) (c : System p) (rest : List (HostMove p)) (j : Nat) (v : PackedWord p.W) (e : Scalar p.SW)
    (elems : List (Scalar p.SW)) (cap : Nat) (fill : Option (PackedWord p.W)),
    (c.phase ≠ .run → j < c.outSpace.size →
      ∃ out : Space p.W,
        step ⟨p, { c with agenda := .buffer (.writeOut j v) :: rest }⟩ =
          .next ⟨p, { c with agenda := rest, outSpace := out }⟩ ∧
        out.size = c.outSpace.size ∧ out.read j = some v ∧ ∀ k, k ≠ j → out.read k = c.outSpace.read k) ∧
    (c.phase ≠ .run → j < c.inSpace.size →
      ∃ inp : Space p.SW,
        step ⟨p, { c with agenda := .buffer (.writeIn j e) :: rest }⟩ =
          .next ⟨p, { c with agenda := rest, inSpace := inp }⟩ ∧
        inp.size = c.inSpace.size ∧ inp.read j = some e ∧ ∀ k, k ≠ j → inp.read k = c.inSpace.read k) ∧
    (c.phase ≠ .run → j < c.outSpace.size →
      step ⟨p, { c with agenda := .buffer (.readOut j) :: rest }⟩ =
        .next ⟨p, { c with agenda := rest, answers := .word (c.outSpace.read j) :: c.answers }⟩) ∧
    (c.phase ≠ .run → j < c.inSpace.size →
      step ⟨p, { c with agenda := .buffer (.readIn j) :: rest }⟩ =
        .next ⟨p, { c with agenda := rest, answers := .scalar (c.inSpace.read j) :: c.answers }⟩) ∧
    (c.phase ≠ .run →
      ∃ inp : Space p.SW,
        step ⟨p, { c with agenda := .buffer (.bindIn elems) :: rest }⟩ =
          .next ⟨p, { c with agenda := rest, inSpace := inp }⟩ ∧
        inp.size = elems.length ∧ ∀ k, inp.read k = elems[k]?) ∧
    (c.phase ≠ .run →
      ∃ out : Space p.W,
        step ⟨p, { c with agenda := .buffer (.bindOut cap fill) :: rest }⟩ =
          .next ⟨p, { c with agenda := rest, outSpace := out }⟩ ∧
        out.size = cap ∧ ∀ k < cap, out.read k = fill) ∧
    (c.phase = .run →
      step ⟨p, { c with agenda := .buffer (.writeOut j v) :: rest }⟩ = .refused .outAccessWhileRunning ∧
      step ⟨p, { c with agenda := .buffer (.readOut j) :: rest }⟩ = .refused .outAccessWhileRunning ∧
      step ⟨p, { c with agenda := .buffer (.bindOut cap fill) :: rest }⟩ = .refused .outAccessWhileRunning ∧
      step ⟨p, { c with agenda := .buffer (.writeIn j e) :: rest }⟩ = .refused .inAccessWhileRunning ∧
      step ⟨p, { c with agenda := .buffer (.readIn j) :: rest }⟩ = .refused .inAccessWhileRunning ∧
      step ⟨p, { c with agenda := .buffer (.bindIn elems) :: rest }⟩ = .refused .inAccessWhileRunning)

/-- The other indices, the model's choice (log 13, deduced from R54): outside `RUN` a host access to an index that its space
does not have faults. -/
def Obligations.HostAccessOutsideItsSpaceFaults : Prop :=
  ∀ (p : Params) (c : System p) (rest : List (HostMove p)) (j : Nat) (v : PackedWord p.W) (e : Scalar p.SW),
    c.phase ≠ .run →
    (c.outSpace.size ≤ j →
      step ⟨p, { c with agenda := .buffer (.writeOut j v) :: rest }⟩ = .fault .outIndexOutOfRange ∧
      step ⟨p, { c with agenda := .buffer (.readOut j) :: rest }⟩ = .fault .outIndexOutOfRange) ∧
    (c.inSpace.size ≤ j →
      step ⟨p, { c with agenda := .buffer (.writeIn j e) :: rest }⟩ = .fault .inIndexOutOfRange ∧
      step ⟨p, { c with agenda := .buffer (.readIn j) :: rest }⟩ = .fault .inIndexOutOfRange)

/-- R5, R6. A block is built exactly for `W ≥ 1`, `SW ≥ 2`, `LW ≥ 1`; with `W = 0` it is refused by name. -/
def Obligations.BlockIsBuiltExactlyForLegalParameters : Prop :=
  (∀ SW LW : Nat, Params.instantiate 0 SW LW = .error .zeroWordWidth) ∧
  ∀ W SW LW : Nat, (∃ p, Params.instantiate W SW LW = .ok p ∧ p.W = W ∧ p.SW = SW ∧ p.LW = LW) ↔
    1 ≤ W ∧ 2 ≤ SW ∧ 1 ≤ LW

/-! ### The words of a block -/

/-- R101. The two words of a block as bits and as numbers; each sum is below `2^W`. -/
def Obligations.PlaneWordsAsBitsAndAsSums : Prop :=
  ∀ (p : Params) (m : Space p.SW) (b : Nat),
    (∀ k < p.W, (lsbWord p m b).getLsbD k = (m.scalar (b * p.W + k)).getLsbD 0 ∧
      (msbWord p m b).getLsbD k = (m.scalar (b * p.W + k)).getLsbD 1) ∧
    (lsbWord p m b).toNat = ∑ k ∈ Finset.range p.W, ((m.scalar (b * p.W + k)).getLsbD 0).toNat * 2 ^ k ∧
    (msbWord p m b).toNat = ∑ k ∈ Finset.range p.W, ((m.scalar (b * p.W + k)).getLsbD 1).toNat * 2 ^ k ∧
    (∑ k ∈ Finset.range p.W, ((m.scalar (b * p.W + k)).getLsbD 0).toNat * 2 ^ k) < 2 ^ p.W ∧
    (∑ k ∈ Finset.range p.W, ((m.scalar (b * p.W + k)).getLsbD 1).toNat * 2 ^ k) < 2 ^ p.W

/-- R111. The fold of OR and shift over a block's positions gives the same two words. -/
def Obligations.FoldGivesThePlaneWords : Prop :=
  ∀ (p : Params) (m : Space p.SW) (b : Nat),
    planeFold p.W (fun k => (m.scalar (b * p.W + k)).getLsbD 0) p.W = lsbWord p m b ∧
    planeFold p.W (fun k => (m.scalar (b * p.W + k)).getLsbD 1) p.W = msbWord p m b

/-! ### Runs -/

/-- R150. THE TWO LEVELS AGREE: START and then, with no host move pending, the packer's own `length + length / W + 1` steps leave
exactly the machine that the PACK of R100 leaves in one; with an invalid length START alone does. -/
def Obligations.StepLevelAgreesWithPack : Prop :=
  ∀ (p : Params) (c : System p) (n : Nat), c.agenda = [] →
    (c.Ready n → n % p.W = 0 →
      ∃ d : System p, exec (.start n) ⟨p, c⟩ = .next ⟨p, d⟩ ∧
        Host.Core.run Sys2Proof.core (n + n / p.W + 1) (⟨p, d⟩ : State) = exec (.pack n) ⟨p, c⟩) ∧
    (c.phase ≠ .run → n < 2 ^ p.LW → c.inSpace.size = n → n % p.W ≠ 0 →
      exec (.start n) ⟨p, c⟩ = exec (.pack n) ⟨p, c⟩)

/-- R210. A PACK of a valid length takes exactly `length + length / W + 2` steps, START the first of them: with `k` steps after
START, `RUN` for every `k` below `length + length / W + 1`, and `DONE` at that number. One of an invalid length takes START
alone. -/
def Obligations.PackEndsAfterExactlyItsSteps : Prop :=
  ∀ (p : Params) (c : System p) (n : Nat), c.agenda = [] →
    (c.Ready n → n % p.W = 0 →
      ∃ s : State, exec (.start n) ⟨p, c⟩ = .next s ∧
        ∀ k ≤ n + n / p.W + 1, ∃ d : System p,
          Host.Core.run Sys2Proof.core k s = .next (⟨p, d⟩ : State) ∧
          d.phase = if k = n + n / p.W + 1 then .done else .run) ∧
    (c.phase ≠ .run → n < 2 ^ p.LW → c.inSpace.size = n → n % p.W ≠ 0 →
      ∃ d : System p, exec (.start n) ⟨p, c⟩ = .next ⟨p, d⟩ ∧ d.phase = .done)

/-- R145, R146, R149. In `RUN`, under the invariant and with every element given a value, the packer's step always answers: no
read or write is out of bounds, and it ends the run or brings its end one step nearer. -/
def Obligations.RunningPackerIsNeverStuck : Prop :=
  ∀ (p : Params) (c : System p), c.Inv → c.phase = .run → c.agenda = [] →
    (∀ i < c.len, (c.inSpace.read i).isSome = true) →
    ∃ d : System p, step ⟨p, c⟩ = .next ⟨p, d⟩ ∧
      ((d.phase = .done ∧ d.res = .ok ∧ c.stepsLeft = 1) ∨ (d.phase = .run ∧ d.stepsLeft + 1 = c.stepsLeft))

/-- R47, R148 clause 4. A step of a running packer never moves `optr` back and keeps every word of OUT from the new `optr` on. -/
def Obligations.RunKeepsTheTailOfOut : Prop :=
  ∀ (p : Params) (c : System p) (t : State), c.phase = .run → c.agenda = [] → step ⟨p, c⟩ = .next t →
    ∃ d : System p, t = ⟨p, d⟩ ∧ c.optr ≤ d.optr ∧ ∀ j, d.optr ≤ j → d.outSpace.read j = c.outSpace.read j

/-- R148. EVERY step of the machine, of the packer or of its host, keeps the invariant: the canonical form of both spaces, R148
while running, and a result that says how the last PACK ended. The canonical form is the model's (log 4). -/
def Obligations.EveryStepKeepsTheInvariant : Prop :=
  ∀ s t : State, s.Inv → step s = .next t → t.Inv

/-- The invariant holds after reset, for every choice of the parameters (that nothing is bound there is the model's, log 8). -/
def Obligations.ResetHasTheInvariant : Prop :=
  ∀ p : Params, (State.resetOf p).Inv

/-- R184, with the model's choice of log 15 (packers as a list of whole machines, their buffers disjoint by construction, a
schedule that stops at the first fault or refusal). Several packers, in any interleaving: each ends in the state it would reach alone in as many steps as the schedule
gives it, and the schedule runs through whenever each would alone. -/
def Obligations.InterleavedPackersRunAsIfAlone : Prop :=
  ∀ (sched : List Nat) (f : List State),
    (∀ g, runSchedule sched f = .next g → g.length = f.length ∧
      ∀ (k : Nat) (s : State), f[k]? = some s →
        ∃ t : State, g[k]? = some t ∧ Host.Core.run Sys2Proof.core (sched.count k) s = .next t) ∧
    ((∀ (k : Nat) (s : State), f[k]? = some s →
        ∃ t : State, Host.Core.run Sys2Proof.core (sched.count k) s = .next t) →
      ∃ g, runSchedule sched f = .next g)
end

