-- ==== Sys2Proof/Laws/State.lean ====
section
/-! SUPPORT. One lemma per field per update of the system, true by `rfl`, so that no proof unfolds a record update. -/

namespace Sys2Proof.Machine

variable {p : Params} (c : System p)

/-! `System.clearWork` -/
@[simp] theorem System.clearWork_lsbAcc : (c.clearWork).lsbAcc = 0#p.W := rfl
@[simp] theorem System.clearWork_msbAcc : (c.clearWork).msbAcc = 0#p.W := rfl
@[simp] theorem System.clearWork_digit : (c.clearWork).digit = 0 := rfl
@[simp] theorem System.clearWork_idx : (c.clearWork).idx = 0 := rfl
@[simp] theorem System.clearWork_optr : (c.clearWork).optr = 0 := rfl
@[simp] theorem System.clearWork_len : (c.clearWork).len = c.len := rfl
@[simp] theorem System.clearWork_phase : (c.clearWork).phase = c.phase := rfl
@[simp] theorem System.clearWork_res : (c.clearWork).res = c.res := rfl
@[simp] theorem System.clearWork_inSpace : (c.clearWork).inSpace = c.inSpace := rfl
@[simp] theorem System.clearWork_outSpace : (c.clearWork).outSpace = c.outSpace := rfl
@[simp] theorem System.clearWork_agenda : (c.clearWork).agenda = c.agenda := rfl
@[simp] theorem System.clearWork_answers : (c.clearWork).answers = c.answers := rfl

/-! `System.finishWith` -/
@[simp] theorem System.finishWith_lsbAcc (r : Result) : (c.finishWith r).lsbAcc = c.lsbAcc := rfl
@[simp] theorem System.finishWith_msbAcc (r : Result) : (c.finishWith r).msbAcc = c.msbAcc := rfl
@[simp] theorem System.finishWith_digit (r : Result) : (c.finishWith r).digit = c.digit := rfl
@[simp] theorem System.finishWith_idx (r : Result) : (c.finishWith r).idx = c.idx := rfl
@[simp] theorem System.finishWith_optr (r : Result) : (c.finishWith r).optr = c.optr := rfl
@[simp] theorem System.finishWith_len (r : Result) : (c.finishWith r).len = c.len := rfl
@[simp] theorem System.finishWith_phase (r : Result) : (c.finishWith r).phase = .done := rfl
@[simp] theorem System.finishWith_res (r : Result) : (c.finishWith r).res = r := rfl
@[simp] theorem System.finishWith_inSpace (r : Result) : (c.finishWith r).inSpace = c.inSpace := rfl
@[simp] theorem System.finishWith_outSpace (r : Result) : (c.finishWith r).outSpace = c.outSpace := rfl
@[simp] theorem System.finishWith_agenda (r : Result) : (c.finishWith r).agenda = c.agenda := rfl
@[simp] theorem System.finishWith_answers (r : Result) : (c.finishWith r).answers = c.answers := rfl

/-! `System.enterRun` -/
@[simp] theorem System.enterRun_lsbAcc (n : Nat) : (c.enterRun n).lsbAcc = 0#p.W := rfl
@[simp] theorem System.enterRun_msbAcc (n : Nat) : (c.enterRun n).msbAcc = 0#p.W := rfl
@[simp] theorem System.enterRun_digit (n : Nat) : (c.enterRun n).digit = 0 := rfl
@[simp] theorem System.enterRun_idx (n : Nat) : (c.enterRun n).idx = 0 := rfl
@[simp] theorem System.enterRun_optr (n : Nat) : (c.enterRun n).optr = 0 := rfl
@[simp] theorem System.enterRun_len (n : Nat) : (c.enterRun n).len = n := rfl
@[simp] theorem System.enterRun_phase (n : Nat) : (c.enterRun n).phase = .run := rfl
@[simp] theorem System.enterRun_res (n : Nat) : (c.enterRun n).res = .ok := rfl
@[simp] theorem System.enterRun_inSpace (n : Nat) : (c.enterRun n).inSpace = c.inSpace := rfl
@[simp] theorem System.enterRun_outSpace (n : Nat) : (c.enterRun n).outSpace = c.outSpace := rfl
@[simp] theorem System.enterRun_agenda (n : Nat) : (c.enterRun n).agenda = c.agenda := rfl
@[simp] theorem System.enterRun_answers (n : Nat) : (c.enterRun n).answers = c.answers := rfl

/-! `System.reportInvalidLength` -/
@[simp] theorem System.reportInvalidLength_lsbAcc (n : Nat) : (c.reportInvalidLength n).lsbAcc = 0#p.W := rfl
@[simp] theorem System.reportInvalidLength_msbAcc (n : Nat) : (c.reportInvalidLength n).msbAcc = 0#p.W := rfl
@[simp] theorem System.reportInvalidLength_digit (n : Nat) : (c.reportInvalidLength n).digit = 0 := rfl
@[simp] theorem System.reportInvalidLength_idx (n : Nat) : (c.reportInvalidLength n).idx = 0 := rfl
@[simp] theorem System.reportInvalidLength_optr (n : Nat) : (c.reportInvalidLength n).optr = 0 := rfl
@[simp] theorem System.reportInvalidLength_len (n : Nat) : (c.reportInvalidLength n).len = n := rfl
@[simp] theorem System.reportInvalidLength_phase (n : Nat) : (c.reportInvalidLength n).phase = .done := rfl
@[simp] theorem System.reportInvalidLength_res (n : Nat) : (c.reportInvalidLength n).res = .invalidLength := rfl
@[simp] theorem System.reportInvalidLength_inSpace (n : Nat) : (c.reportInvalidLength n).inSpace = c.inSpace := rfl
@[simp] theorem System.reportInvalidLength_outSpace (n : Nat) : (c.reportInvalidLength n).outSpace = c.outSpace := rfl
@[simp] theorem System.reportInvalidLength_agenda (n : Nat) : (c.reportInvalidLength n).agenda = c.agenda := rfl
@[simp] theorem System.reportInvalidLength_answers (n : Nat) : (c.reportInvalidLength n).answers = c.answers := rfl

/-! `System.completePack` -/
@[simp] theorem System.completePack_lsbAcc (n : Nat) (m : Space p.W) : (c.completePack n m).lsbAcc = 0#p.W := rfl
@[simp] theorem System.completePack_msbAcc (n : Nat) (m : Space p.W) : (c.completePack n m).msbAcc = 0#p.W := rfl
@[simp] theorem System.completePack_digit (n : Nat) (m : Space p.W) : (c.completePack n m).digit = 0 := rfl
@[simp] theorem System.completePack_idx (n : Nat) (m : Space p.W) : (c.completePack n m).idx = n := rfl
@[simp] theorem System.completePack_optr (n : Nat) (m : Space p.W) : (c.completePack n m).optr = nout p n := rfl
@[simp] theorem System.completePack_len (n : Nat) (m : Space p.W) : (c.completePack n m).len = n := rfl
@[simp] theorem System.completePack_phase (n : Nat) (m : Space p.W) : (c.completePack n m).phase = .done := rfl
@[simp] theorem System.completePack_res (n : Nat) (m : Space p.W) : (c.completePack n m).res = .ok := rfl
@[simp] theorem System.completePack_inSpace (n : Nat) (m : Space p.W) : (c.completePack n m).inSpace = c.inSpace := rfl
@[simp] theorem System.completePack_outSpace (n : Nat) (m : Space p.W) : (c.completePack n m).outSpace = m := rfl
@[simp] theorem System.completePack_agenda (n : Nat) (m : Space p.W) : (c.completePack n m).agenda = c.agenda := rfl
@[simp] theorem System.completePack_answers (n : Nat) (m : Space p.W) : (c.completePack n m).answers = c.answers := rfl

/-! `System.accumulate` -/
@[simp] theorem System.accumulate_lsbAcc (e : Scalar p.SW) : (c.accumulate e).lsbAcc = c.lsbAcc ||| place p.W (lsbOf e) c.digit := rfl
@[simp] theorem System.accumulate_msbAcc (e : Scalar p.SW) : (c.accumulate e).msbAcc = c.msbAcc ||| place p.W (msbOf e) c.digit := rfl
@[simp] theorem System.accumulate_digit (e : Scalar p.SW) : (c.accumulate e).digit = c.digit + 1 := rfl
@[simp] theorem System.accumulate_idx (e : Scalar p.SW) : (c.accumulate e).idx = c.idx + 1 := rfl
@[simp] theorem System.accumulate_optr (e : Scalar p.SW) : (c.accumulate e).optr = c.optr := rfl
@[simp] theorem System.accumulate_len (e : Scalar p.SW) : (c.accumulate e).len = c.len := rfl
@[simp] theorem System.accumulate_phase (e : Scalar p.SW) : (c.accumulate e).phase = c.phase := rfl
@[simp] theorem System.accumulate_res (e : Scalar p.SW) : (c.accumulate e).res = c.res := rfl
@[simp] theorem System.accumulate_inSpace (e : Scalar p.SW) : (c.accumulate e).inSpace = c.inSpace := rfl
@[simp] theorem System.accumulate_outSpace (e : Scalar p.SW) : (c.accumulate e).outSpace = c.outSpace := rfl
@[simp] theorem System.accumulate_agenda (e : Scalar p.SW) : (c.accumulate e).agenda = c.agenda := rfl
@[simp] theorem System.accumulate_answers (e : Scalar p.SW) : (c.accumulate e).answers = c.answers := rfl

/-! `System.emitPair` -/
@[simp] theorem System.emitPair_lsbAcc : (c.emitPair).lsbAcc = 0#p.W := rfl
@[simp] theorem System.emitPair_msbAcc : (c.emitPair).msbAcc = 0#p.W := rfl
@[simp] theorem System.emitPair_digit : (c.emitPair).digit = 0 := rfl
@[simp] theorem System.emitPair_idx : (c.emitPair).idx = c.idx := rfl
@[simp] theorem System.emitPair_optr : (c.emitPair).optr = c.optr + 2 := rfl
@[simp] theorem System.emitPair_len : (c.emitPair).len = c.len := rfl
@[simp] theorem System.emitPair_phase : (c.emitPair).phase = c.phase := rfl
@[simp] theorem System.emitPair_res : (c.emitPair).res = c.res := rfl
@[simp] theorem System.emitPair_inSpace : (c.emitPair).inSpace = c.inSpace := rfl
@[simp] theorem System.emitPair_outSpace : (c.emitPair).outSpace = (c.outSpace.write c.optr c.lsbAcc).write (c.optr + 1) c.msbAcc := rfl
@[simp] theorem System.emitPair_agenda : (c.emitPair).agenda = c.agenda := rfl
@[simp] theorem System.emitPair_answers : (c.emitPair).answers = c.answers := rfl

/-! `System.tell` -/
@[simp] theorem System.tell_lsbAcc (a : Answer p) : (c.tell a).lsbAcc = c.lsbAcc := rfl
@[simp] theorem System.tell_msbAcc (a : Answer p) : (c.tell a).msbAcc = c.msbAcc := rfl
@[simp] theorem System.tell_digit (a : Answer p) : (c.tell a).digit = c.digit := rfl
@[simp] theorem System.tell_idx (a : Answer p) : (c.tell a).idx = c.idx := rfl
@[simp] theorem System.tell_optr (a : Answer p) : (c.tell a).optr = c.optr := rfl
@[simp] theorem System.tell_len (a : Answer p) : (c.tell a).len = c.len := rfl
@[simp] theorem System.tell_phase (a : Answer p) : (c.tell a).phase = c.phase := rfl
@[simp] theorem System.tell_res (a : Answer p) : (c.tell a).res = c.res := rfl
@[simp] theorem System.tell_inSpace (a : Answer p) : (c.tell a).inSpace = c.inSpace := rfl
@[simp] theorem System.tell_outSpace (a : Answer p) : (c.tell a).outSpace = c.outSpace := rfl
@[simp] theorem System.tell_agenda (a : Answer p) : (c.tell a).agenda = c.agenda := rfl
@[simp] theorem System.tell_answers (a : Answer p) : (c.tell a).answers = a :: c.answers := rfl

/-! `System.setIn` -/
@[simp] theorem System.setIn_lsbAcc (m : Space p.SW) : (c.setIn m).lsbAcc = c.lsbAcc := rfl
@[simp] theorem System.setIn_msbAcc (m : Space p.SW) : (c.setIn m).msbAcc = c.msbAcc := rfl
@[simp] theorem System.setIn_digit (m : Space p.SW) : (c.setIn m).digit = c.digit := rfl
@[simp] theorem System.setIn_idx (m : Space p.SW) : (c.setIn m).idx = c.idx := rfl
@[simp] theorem System.setIn_optr (m : Space p.SW) : (c.setIn m).optr = c.optr := rfl
@[simp] theorem System.setIn_len (m : Space p.SW) : (c.setIn m).len = c.len := rfl
@[simp] theorem System.setIn_phase (m : Space p.SW) : (c.setIn m).phase = c.phase := rfl
@[simp] theorem System.setIn_res (m : Space p.SW) : (c.setIn m).res = c.res := rfl
@[simp] theorem System.setIn_inSpace (m : Space p.SW) : (c.setIn m).inSpace = m := rfl
@[simp] theorem System.setIn_outSpace (m : Space p.SW) : (c.setIn m).outSpace = c.outSpace := rfl
@[simp] theorem System.setIn_agenda (m : Space p.SW) : (c.setIn m).agenda = c.agenda := rfl
@[simp] theorem System.setIn_answers (m : Space p.SW) : (c.setIn m).answers = c.answers := rfl

/-! `System.setOut` -/
@[simp] theorem System.setOut_lsbAcc (m : Space p.W) : (c.setOut m).lsbAcc = c.lsbAcc := rfl
@[simp] theorem System.setOut_msbAcc (m : Space p.W) : (c.setOut m).msbAcc = c.msbAcc := rfl
@[simp] theorem System.setOut_digit (m : Space p.W) : (c.setOut m).digit = c.digit := rfl
@[simp] theorem System.setOut_idx (m : Space p.W) : (c.setOut m).idx = c.idx := rfl
@[simp] theorem System.setOut_optr (m : Space p.W) : (c.setOut m).optr = c.optr := rfl
@[simp] theorem System.setOut_len (m : Space p.W) : (c.setOut m).len = c.len := rfl
@[simp] theorem System.setOut_phase (m : Space p.W) : (c.setOut m).phase = c.phase := rfl
@[simp] theorem System.setOut_res (m : Space p.W) : (c.setOut m).res = c.res := rfl
@[simp] theorem System.setOut_inSpace (m : Space p.W) : (c.setOut m).inSpace = c.inSpace := rfl
@[simp] theorem System.setOut_outSpace (m : Space p.W) : (c.setOut m).outSpace = m := rfl
@[simp] theorem System.setOut_agenda (m : Space p.W) : (c.setOut m).agenda = c.agenda := rfl
@[simp] theorem System.setOut_answers (m : Space p.W) : (c.setOut m).answers = c.answers := rfl

/-! `System.setAgenda` -/
@[simp] theorem System.setAgenda_lsbAcc (l : List (HostMove p)) : (c.setAgenda l).lsbAcc = c.lsbAcc := rfl
@[simp] theorem System.setAgenda_msbAcc (l : List (HostMove p)) : (c.setAgenda l).msbAcc = c.msbAcc := rfl
@[simp] theorem System.setAgenda_digit (l : List (HostMove p)) : (c.setAgenda l).digit = c.digit := rfl
@[simp] theorem System.setAgenda_idx (l : List (HostMove p)) : (c.setAgenda l).idx = c.idx := rfl
@[simp] theorem System.setAgenda_optr (l : List (HostMove p)) : (c.setAgenda l).optr = c.optr := rfl
@[simp] theorem System.setAgenda_len (l : List (HostMove p)) : (c.setAgenda l).len = c.len := rfl
@[simp] theorem System.setAgenda_phase (l : List (HostMove p)) : (c.setAgenda l).phase = c.phase := rfl
@[simp] theorem System.setAgenda_res (l : List (HostMove p)) : (c.setAgenda l).res = c.res := rfl
@[simp] theorem System.setAgenda_inSpace (l : List (HostMove p)) : (c.setAgenda l).inSpace = c.inSpace := rfl
@[simp] theorem System.setAgenda_outSpace (l : List (HostMove p)) : (c.setAgenda l).outSpace = c.outSpace := rfl
@[simp] theorem System.setAgenda_agenda (l : List (HostMove p)) : (c.setAgenda l).agenda = l := rfl
@[simp] theorem System.setAgenda_answers (l : List (HostMove p)) : (c.setAgenda l).answers = c.answers := rfl

/-! `System.hardReset` -/
@[simp] theorem System.hardReset_lsbAcc : (c.hardReset).lsbAcc = 0#p.W := rfl
@[simp] theorem System.hardReset_msbAcc : (c.hardReset).msbAcc = 0#p.W := rfl
@[simp] theorem System.hardReset_digit : (c.hardReset).digit = 0 := rfl
@[simp] theorem System.hardReset_idx : (c.hardReset).idx = 0 := rfl
@[simp] theorem System.hardReset_optr : (c.hardReset).optr = 0 := rfl
@[simp] theorem System.hardReset_len : (c.hardReset).len = 0 := rfl
@[simp] theorem System.hardReset_phase : (c.hardReset).phase = .idle := rfl
@[simp] theorem System.hardReset_res : (c.hardReset).res = .ok := rfl
@[simp] theorem System.hardReset_inSpace : (c.hardReset).inSpace = c.inSpace := rfl
@[simp] theorem System.hardReset_outSpace : (c.hardReset).outSpace = c.outAfterReset := rfl
@[simp] theorem System.hardReset_agenda : (c.hardReset).agenda = c.agenda := rfl
@[simp] theorem System.hardReset_answers : (c.hardReset).answers = c.answers := rfl

/-! OUT after the reset event -/
theorem System.outAfterReset_of_run {c : System p} (h : c.phase = .run) : c.outAfterReset = c.outSpace.forgetBelow (nout p c.len) := if_pos h
theorem System.outAfterReset_of_not_run {c : System p} (h : c.phase ≠ .run) : c.outAfterReset = c.outSpace := if_neg h
@[simp] theorem System.setAgenda_outAfterReset (l : List (HostMove p)) : (c.setAgenda l).outAfterReset = c.outAfterReset := rfl

end Sys2Proof.Machine
end

