-- ==== Sys2Proof/Laws/Memory.lean ====
section
/-! SUPPORT. The laws of the two spaces: a read after a write, the frame of a write, and that every operation keeps the
canonical form `Space.wf`. -/

namespace Sys2Proof.Machine

variable {w : Nat}

/-! ### Cells -/

@[simp] theorem cellsGet_nil (i : Nat) : cellsGet ([] : List (Nat × BitVec w)) i = none := rfl

theorem cellsGet_put_same (l : List (Nat × BitVec w)) (i : Nat) (v : BitVec w) :
    cellsGet (cellsPut l i v) i = some v := by
  induction l with
  | nil => simp [cellsPut, cellsGet]
  | cons a rest ih =>
    obtain ⟨j, u⟩ := a
    simp only [cellsPut]
    split
    · simp [cellsGet]
    · split
      · simp [cellsGet]
      · simp [cellsGet, *]

theorem cellsGet_put_other (l : List (Nat × BitVec w)) {i j : Nat} (v : BitVec w) (h : i ≠ j) :
    cellsGet (cellsPut l j v) i = cellsGet l i := by
  induction l with
  | nil => simp [cellsPut, cellsGet, h]
  | cons a rest ih =>
    obtain ⟨k, u⟩ := a
    simp only [cellsPut]
    split
    · simp [cellsGet, h]
    · split
      · subst_vars; simp [cellsGet, h]
      · simp [cellsGet, ih]

/-- The addresses after a write: the old ones and the one written. -/
theorem mem_keys_cellsPut (l : List (Nat × BitVec w)) (i a : Nat) (v : BitVec w) :
    a ∈ (cellsPut l i v).map Prod.fst ↔ a = i ∨ a ∈ l.map Prod.fst := by
  induction l with
  | nil => simp [cellsPut]
  | cons b rest ih =>
    obtain ⟨j, u⟩ := b
    simp only [cellsPut]
    split
    · simp
    · split
      · subst_vars; simp
      · simp only [List.map_cons, List.mem_cons, ih]; tauto

theorem cellsPut_rising (l : List (Nat × BitVec w)) (i : Nat) (v : BitVec w)
    (h : (l.map Prod.fst).Pairwise (· < ·)) : ((cellsPut l i v).map Prod.fst).Pairwise (· < ·) := by
  induction l with
  | nil => simp [cellsPut]
  | cons b rest ih =>
    obtain ⟨j, u⟩ := b
    rw [List.map_cons, List.pairwise_cons] at h
    simp only [cellsPut]
    split
    · rename_i hij
      simp only [List.map_cons, List.pairwise_cons, List.mem_cons, forall_eq_or_imp]
      exact ⟨⟨hij, fun a ha => lt_trans hij (h.1 a ha)⟩, h.1, h.2⟩
    · split
      · subst_vars; simpa using h
      · rw [List.map_cons, List.pairwise_cons]
        refine ⟨fun a ha => ?_, ih h.2⟩
        rcases (mem_keys_cellsPut rest i a v).1 ha with rfl | ha
        · show j < a; omega
        · exact h.1 a ha

theorem cellsFrom_get (l : List (BitVec w)) (n i : Nat) :
    cellsGet (cellsFrom n l) (n + i) = l[i]? := by
  induction l generalizing n i with
  | nil => rfl
  | cons e rest ih =>
    cases i with
    | zero => simp [cellsFrom, cellsGet]
    | succ i =>
      have h : n + (i + 1) = (n + 1) + i := by omega
      simp only [cellsFrom, cellsGet]
      rw [if_neg (by omega), h, ih]
      simp

theorem cellsFrom_keys (l : List (BitVec w)) (n a : Nat) :
    a ∈ (cellsFrom n l).map Prod.fst → n ≤ a ∧ a < n + l.length := by
  induction l generalizing n with
  | nil => simp [cellsFrom]
  | cons e rest ih =>
    simp only [cellsFrom, List.map_cons, List.mem_cons, List.length_cons]
    rintro (rfl | h)
    · omega
    · have := ih (n + 1) h; omega

theorem cellsFrom_rising (l : List (BitVec w)) (n : Nat) : ((cellsFrom n l).map Prod.fst).Pairwise (· < ·) := by
  induction l generalizing n with
  | nil => simp [cellsFrom]
  | cons e rest ih =>
    simp only [cellsFrom, List.map_cons, List.pairwise_cons]
    exact ⟨fun a ha => (cellsFrom_keys rest (n + 1) a ha).1, ih (n + 1)⟩

theorem cellsGet_filter (l : List (Nat × BitVec w)) (n i : Nat) :
    cellsGet (l.filter (fun a => decide (n ≤ a.1))) i = if n ≤ i then cellsGet l i else none := by
  induction l with
  | nil => simp
  | cons a rest ih =>
    obtain ⟨j, u⟩ := a
    rw [List.filter_cons]
    by_cases hj : n ≤ j
    · simp only [hj, decide_true, if_true, cellsGet, ih]
      by_cases hij : i = j
      · subst hij; simp [hj]
      · simp [hij]
    · simp only [hj, decide_false, Bool.false_eq_true, if_false, ih]
      by_cases hi : n ≤ i
      · have hij : i ≠ j := by omega
        simp [hi, cellsGet, hij]
      · simp [hi]

/-! ### Spaces -/

@[simp] theorem Space.write_size (m : Space w) (j : Nat) (v : BitVec w) : (m.write j v).size = m.size := by
  unfold Space.write; split <;> rfl

@[simp] theorem Space.blank_size (n : Nat) : (Space.blank w n).size = n := rfl

@[simp] theorem Space.ofList_size (l : List (BitVec w)) : (Space.ofList l).size = l.length := rfl

@[simp] theorem Space.forgetBelow_size (m : Space w) (n : Nat) : (m.forgetBelow n).size = m.size := rfl

theorem Space.read_eq_none_of_size_le (m : Space w) {i : Nat} (h : m.size ≤ i) : m.read i = none := by
  simp [Space.read, Nat.not_lt.mpr h]

theorem Space.lt_size_of_read (m : Space w) {i : Nat} {v : BitVec w} (h : m.read i = some v) : i < m.size := by
  by_contra hi; simp [Space.read, hi] at h

theorem Space.read_write_same (m : Space w) {j : Nat} (v : BitVec w) (h : j < m.size) :
    (m.write j v).read j = some v := by
  simp [Space.write, Space.read, h, cellsGet_put_same]

theorem Space.read_write_other (m : Space w) {i j : Nat} (v : BitVec w) (h : i ≠ j) :
    (m.write j v).read i = m.read i := by
  unfold Space.write; split
  · simp [Space.read, cellsGet_put_other _ v h]
  · rfl

@[simp] theorem Space.read_blank (n i : Nat) : (Space.blank w n).read i = none := by
  unfold Space.read Space.blank; split <;> rfl

@[simp] theorem Space.read_ofList (l : List (BitVec w)) (i : Nat) : (Space.ofList l).read i = l[i]? := by
  unfold Space.read Space.ofList
  have := cellsFrom_get l 0 i
  simp only [Nat.zero_add] at this
  split
  · exact this
  · rename_i hi; rw [List.getElem?_eq_none (not_lt.1 hi)]

theorem Space.filled_some (n : Nat) (v : BitVec w) : Space.filled n (some v) = Space.ofList (List.replicate n v) := by
  simp [Space.filled, Space.ofList]

@[simp] theorem Space.filled_size (n : Nat) (fill : Option (BitVec w)) : (Space.filled n fill).size = n := by
  cases fill <;> rfl

theorem Space.read_filled {n i : Nat} (fill : Option (BitVec w)) (h : i < n) : (Space.filled n fill).read i = fill := by
  cases fill with
  | none => exact Space.read_blank n i
  | some v => simp [Space.filled_some, h]

theorem Space.read_forgetBelow (m : Space w) (n i : Nat) :
    (m.forgetBelow n).read i = if n ≤ i then m.read i else none := by
  simp only [Space.read, Space.forgetBelow, cellsGet_filter]
  split <;> split <;> rfl

theorem Space.complete_iff (m : Space w) (n : Nat) :
    m.complete n = true ↔ ∀ i < n, (m.read i).isSome = true := by
  simp [Space.complete]

theorem Space.read_eq_some_scalar (m : Space w) {i : Nat} (h : (m.read i).isSome = true) :
    m.read i = some (m.scalar i) := by
  obtain ⟨v, hv⟩ := Option.isSome_iff_exists.1 h
  simp [Space.scalar, hv]

theorem Space.scalar_of_read (m : Space w) {i : Nat} {v : BitVec w} (h : m.read i = some v) : m.scalar i = v := by
  simp [Space.scalar, h]

/-! ### The canonical form -/

theorem Space.blank_wf (n : Nat) : (Space.blank w n).wf := by simp [Space.wf, Space.blank]

theorem Space.ofList_wf (l : List (BitVec w)) : (Space.ofList l).wf := by
  refine ⟨cellsFrom_rising l 0, fun a ha => ?_⟩
  have := (cellsFrom_keys l 0 a ha).2
  simpa using this

theorem Space.filled_wf (n : Nat) (fill : Option (BitVec w)) : (Space.filled n fill).wf := by
  cases fill with
  | none => exact Space.blank_wf n
  | some v => rw [Space.filled_some]; exact Space.ofList_wf _

theorem Space.write_wf (m : Space w) (j : Nat) (v : BitVec w) (h : m.wf) : (m.write j v).wf := by
  unfold Space.write; split
  · refine ⟨cellsPut_rising _ _ _ h.1, fun a ha => ?_⟩
    rcases (mem_keys_cellsPut _ _ _ _).1 ha with rfl | ha
    · assumption
    · exact h.2 a ha
  · exact h

theorem Space.forgetBelow_wf (m : Space w) (n : Nat) (h : m.wf) : (m.forgetBelow n).wf := by
  have hs : ((m.forgetBelow n).cells.map Prod.fst).Sublist (m.cells.map Prod.fst) := List.filter_sublist.map _
  exact ⟨h.1.sublist hs, fun a ha => h.2 a (hs.subset ha)⟩

/-- An address that is not listed has no value. -/
theorem cellsGet_isSome_iff (l : List (Nat × BitVec w)) (i : Nat) :
    (cellsGet l i).isSome = true ↔ i ∈ l.map Prod.fst := by
  induction l with
  | nil => simp
  | cons a rest ih =>
    obtain ⟨j, u⟩ := a
    by_cases h : i = j <;> simp_all [cellsGet]

/-- Two rising lists with the same value at every address are the same list. -/
theorem cells_eq_of_get : ∀ (l l' : List (Nat × BitVec w)), (l.map Prod.fst).Pairwise (· < ·) →
    (l'.map Prod.fst).Pairwise (· < ·) → (∀ i, cellsGet l i = cellsGet l' i) → l = l'
  | [], [], _, _, _ => rfl
  | [], (j, u) :: rest, _, _, h => by simpa [cellsGet] using h j
  | (j, u) :: rest, [], _, _, h => by simpa [cellsGet] using h j
  | (j, u) :: rest, (k, v) :: rest', hl, hl', h => by
    rw [List.map_cons, List.pairwise_cons] at hl hl'
    have later : ∀ (t : List (Nat × BitVec w)) (a i : Nat), (∀ b ∈ t.map Prod.fst, a < b) → i ≤ a → cellsGet t i = none := by
      intro t a i ht hi
      by_contra hne
      have := (cellsGet_isSome_iff t i).1 (Option.isSome_iff_ne_none.2 hne)
      exact absurd (ht i this) (by omega)
    have hjk : j = k := by
      rcases Nat.lt_trichotomy j k with hlt | heq | hgt
      · have h1 := h j
        simp only [cellsGet, if_true, if_neg (Nat.ne_of_lt hlt), later rest' k j hl'.1 (le_of_lt hlt)] at h1
        cases h1
      · exact heq
      · have h1 := h k
        simp only [cellsGet, if_true, if_neg (Nat.ne_of_lt hgt), later rest j k hl.1 (le_of_lt hgt)] at h1
        cases h1
    subst hjk
    have hu : u = v := by simpa [cellsGet] using h j
    subst hu
    have hrest : rest = rest' := cells_eq_of_get rest rest' hl.2 hl'.2 (fun i => by
      have h1 := h i
      by_cases hi : i = j
      · subst hi; rw [later rest i i hl.1 le_rfl, later rest' i i hl'.1 le_rfl]
      · simpa [cellsGet, hi] using h1)
    rw [hrest]

/-- Equal spaces are equal data: what the canonical form is for. -/
theorem Space.eq_of_read {m m' : Space w} (h : m.wf) (h' : m'.wf) (hs : m.size = m'.size)
    (hr : ∀ i, m.read i = m'.read i) : m = m' := by
  have outside : ∀ (x : Space w) (i : Nat), x.wf → x.size ≤ i → cellsGet x.cells i = none := by
    intro x i hx hi
    by_contra hne
    have := hx.2 i ((cellsGet_isSome_iff x.cells i).1 (Option.isSome_iff_ne_none.2 hne))
    omega
  have hc : m.cells = m'.cells := by
    refine cells_eq_of_get _ _ h.1 h'.1 (fun i => ?_)
    by_cases hi : i < m.size
    · have := hr i
      rwa [Space.read, Space.read, if_pos hi, if_pos (hs ▸ hi)] at this
    · rw [outside m i h (not_lt.1 hi), outside m' i h' (by omega)]
  cases m; cases m'; simp_all

/-! ### The writes of a PACK -/

variable {p : Params}

@[simp] theorem writeBlocks_size (m : Space p.SW) (out : Space p.W) (q : Nat) :
    (writeBlocks p m out q).size = out.size := by
  induction q with
  | zero => rfl
  | succ q ih => simp [writeBlocks, ih]

theorem writeBlocks_wf (m : Space p.SW) (out : Space p.W) (q : Nat) (h : out.wf) : (writeBlocks p m out q).wf := by
  induction q with
  | zero => exact h
  | succ q ih => exact Space.write_wf _ _ _ (Space.write_wf _ _ _ ih)

/-- Words from `2 * q` on keep what they held (R47). -/
theorem writeBlocks_read_above (m : Space p.SW) (out : Space p.W) (q j : Nat) (h : 2 * q ≤ j) :
    (writeBlocks p m out q).read j = out.read j := by
  induction q with
  | zero => rfl
  | succ q ih =>
    simp only [writeBlocks]
    rw [Space.read_write_other _ _ (by omega), Space.read_write_other _ _ (by omega), ih (by omega)]

/-- The pair of every block below `q` (R46, R101). -/
theorem writeBlocks_read_below (m : Space p.SW) (out : Space p.W) (q b : Nat) (h : b < q) (hs : 2 * q ≤ out.size) :
    (writeBlocks p m out q).read (2 * b) = some (lsbWord p m b) ∧
    (writeBlocks p m out q).read (2 * b + 1) = some (msbWord p m b) := by
  induction q with
  | zero => omega
  | succ q ih =>
    simp only [writeBlocks]
    by_cases hb : b = q
    · subst hb
      refine ⟨?_, Space.read_write_same _ _ (by simp; omega)⟩
      rw [Space.read_write_other _ _ (by omega), Space.read_write_same _ _ (by simp; omega)]
    · obtain ⟨h1, h2⟩ := ih (by omega) (by omega)
      constructor
      · rw [Space.read_write_other _ _ (by omega), Space.read_write_other _ _ (by omega), h1]
      · rw [Space.read_write_other _ _ (by omega), Space.read_write_other _ _ (by omega), h2]

end Sys2Proof.Machine
end

