-- ==== Sys2Proof/Laws/Words.lean ====
section
/-! SUPPORT. The bits of a placed bit and of the words of a block (spec/30_encoding.md R77, spec/40_pack_command.md R101). -/

namespace Sys2Proof.Machine

/-- R77: "has bit `digit` equal to `p` and every other bit zero". -/
theorem place_getLsbD {w : Nat} (b : Bool) (digit k : Nat) :
    (place w b digit).getLsbD k = (decide (k < w) && decide (k = digit) && b) := by
  unfold place
  simp only [BitVec.getLsbD_shiftLeft, BitVec.getLsbD_setWidth, BitVec.getLsbD_ofBool]
  rcases Nat.lt_trichotomy k digit with h | h | h
  · simp [h, Nat.ne_of_lt h]
  · subst h; by_cases hk : k < w <;> simp [hk]; omega
  · have : k ≠ digit := by omega
    have : k - digit ≠ 0 := by omega
    simp [*]

theorem planeSum_lt (f : Nat → Bool) (n : Nat) : planeSum f n < 2 ^ n := by
  induction n with
  | zero => simp [planeSum]
  | succ n ih =>
    have : (f n).toNat ≤ 1 := by cases f n <;> simp
    have : (f n).toNat * 2 ^ n ≤ 1 * 2 ^ n := Nat.mul_le_mul_right _ this
    simp only [planeSum, Nat.pow_succ]; omega

theorem planeSum_testBit (f : Nat → Bool) (n k : Nat) : (planeSum f n).testBit k = (decide (k < n) && f k) := by
  induction n with
  | zero => simp [planeSum]
  | succ n ih =>
    have hlt := planeSum_lt f n
    have h : planeSum f (n + 1) = 2 ^ n * (f n).toNat + planeSum f n := by simp only [planeSum]; ring
    rw [h, Nat.testBit_two_pow_mul_add _ hlt]
    by_cases hk : k < n
    · simp [hk, ih, Nat.lt_succ_of_lt hk]
    · by_cases hkn : k = n
      · subst hkn; cases hf : f k <;> simp
      · have h1 : ¬ k < n + 1 := by omega
        obtain ⟨m, hm⟩ : ∃ m, k - n = m + 1 := ⟨k - n - 1, by omega⟩
        cases f n <;> simp [hk, h1, hm, Nat.testBit_succ]

/-- R71, R101: bit `k` of a plane word is the plane bit of position `k`. -/
theorem planeWord_getLsbD (w : Nat) (f : Nat → Bool) (k : Nat) :
    (planeWord w f).getLsbD k = (decide (k < w) && f k) := by
  simp only [planeWord, BitVec.getLsbD_ofNat, planeSum_testBit]
  by_cases hk : k < w <;> simp [hk]

variable (p : Params) (m : Space p.SW) (b : Nat)

theorem lsbWord_getLsbD {k : Nat} (h : k < p.W) :
    (lsbWord p m b).getLsbD k = lsbOf (m.scalar (b * p.W + k)) := by
  rw [lsbWord, planeWord_getLsbD, decide_eq_true h, Bool.true_and]

theorem msbWord_getLsbD {k : Nat} (h : k < p.W) :
    (msbWord p m b).getLsbD k = msbOf (m.scalar (b * p.W + k)) := by
  rw [msbWord, planeWord_getLsbD, decide_eq_true h, Bool.true_and]

/-- Two plane words are equal where their planes agree (R107: the outcome is a function of `e[1:0]`). -/
theorem planeWord_congr {w : Nat} {f g : Nat → Bool} (h : ∀ k < w, f k = g k) : planeWord w f = planeWord w g := by
  apply BitVec.eq_of_getLsbD_eq
  intro k hk
  rw [planeWord_getLsbD, planeWord_getLsbD, h k hk]

end Sys2Proof.Machine
end

