-- ==== Sys2Proof/Laws/Steps.lean ====
section
/-! SUPPORT. For each meaning and each shared operation, once: everything it can do. Later proofs cite these and never unfold
the meaning. -/

namespace Sys2Proof.Machine

variable {p : Params} {c d : System p}

/-! ### From the system to the machine -/

@[simp] theorem inMachine_next (c : System p) : inMachine p (.next c) = .next ⟨p, c⟩ := rfl
@[simp] theorem inMachine_fault (f : Fault) : inMachine p (.fault f) = .fault f := rfl
@[simp] theorem inMachine_refused (r : Refusal) : inMachine p (.refused r) = .refused r := rfl

/-- A meaning that answers a next state leaves the parameters as they are (R5). -/
theorem inMachine_eq_next {r : Host.Outcome (System p) Fault Refusal} {t : State}
    (h : inMachine p r = .next t) : ∃ d, r = .next d ∧ t = ⟨p, d⟩ := by
  cases r with
  | next d => cases h; exact ⟨d, rfl, rfl⟩
  | fault f => cases h
  | refused f => cases h

@[simp] theorem exec_pack (n : Nat) : exec (.pack n) ⟨p, c⟩ = inMachine p (c.pack n) := rfl
@[simp] theorem exec_rdstatus : exec .rdstatus ⟨p, c⟩ = .next ⟨p, c.tell (.status c.statusWord)⟩ := rfl
@[simp] theorem exec_start (n : Nat) : exec (.start n) ⟨p, c⟩ = inMachine p (c.startStep n) := rfl
@[simp] theorem exec_acc : exec .acc ⟨p, c⟩ = inMachine p c.accStep := rfl
@[simp] theorem exec_emit : exec .emit ⟨p, c⟩ = inMachine p c.emitStep := rfl
@[simp] theorem exec_finish : exec .finish ⟨p, c⟩ = inMachine p c.finishStep := rfl

/-! ### The premises of a command -/

theorem System.commandRefusal_eq_none {n : Nat} :
    c.commandRefusal n = none ↔
      c.phase ≠ .run ∧ n < 2 ^ p.LW ∧ c.inSpace.size = n ∧ (n % p.W = 0 → nout p n ≤ c.outSpace.size) := by
  unfold System.commandRefusal
  split
  · simp [*]
  · split
    · rename_i h; simp [Nat.not_lt.mpr h]
    · split
      · simp_all
      · split
        · simp_all
        · simp_all

theorem System.Ready_commandRefusal {n : Nat} (h1 : c.phase ≠ .run) (h2 : n < 2 ^ p.LW)
    (h3 : c.inSpace.size = n) (h4 : nout p n ≤ c.outSpace.size) : c.commandRefusal n = none :=
  System.commandRefusal_eq_none.2 ⟨h1, h2, h3, fun _ => h4⟩

/-- `IN[i]` answers a scalar exactly where the space has one. -/
theorem System.readIn_eq_ok {i : Nat} {e : Scalar p.SW} : c.readIn i = .ok e ↔ c.inSpace.read i = some e := by
  unfold System.readIn
  by_cases h : i < c.inSpace.size
  · rw [if_pos h]
    cases hr : c.inSpace.read i <;> simp
  · rw [if_neg h, Space.read_eq_none_of_size_le _ (not_lt.1 h)]
    simp

/-! ### The operations -/

/-- All that PACK can do when it answers (R100, R109, R177). -/
theorem System.pack_eq_next {n : Nat} (h : c.pack n = .next d) :
    c.phase ≠ .run ∧ n < 2 ^ p.LW ∧ c.inSpace.size = n ∧
      ((n % p.W ≠ 0 ∧ d = c.reportInvalidLength n) ∨
       (n % p.W = 0 ∧ nout p n ≤ c.outSpace.size ∧ c.inSpace.complete n = true ∧
          d = c.completePack n (writeBlocks p c.inSpace c.outSpace (n / p.W)))) := by
  unfold System.pack at h
  split at h
  · cases h
  · rename_i hn
    obtain ⟨h1, h2, h3, h4⟩ := System.commandRefusal_eq_none.1 hn
    refine ⟨h1, h2, h3, ?_⟩
    split at h
    · cases h; exact .inl ⟨‹_›, rfl⟩
    · rename_i h0
      have h0 : n % p.W = 0 := not_not.1 h0
      split at h
      · cases h; exact .inr ⟨h0, h4 h0, ‹_›, rfl⟩
      · cases h

theorem System.pack_invalid {n : Nat} (h1 : c.phase ≠ .run) (h2 : n < 2 ^ p.LW) (h3 : c.inSpace.size = n)
    (h : n % p.W ≠ 0) : c.pack n = .next (c.reportInvalidLength n) := by
  have hn : c.commandRefusal n = none := System.commandRefusal_eq_none.2 ⟨h1, h2, h3, fun h0 => absurd h0 h⟩
  simp [System.pack, hn, h]

theorem System.pack_valid {n : Nat} (h1 : c.phase ≠ .run) (h2 : n < 2 ^ p.LW) (h : n % p.W = 0)
    (h3 : c.inSpace.size = n) (h4 : nout p n ≤ c.outSpace.size) (h5 : c.inSpace.complete n = true) :
    c.pack n = .next (c.completePack n (writeBlocks p c.inSpace c.outSpace (n / p.W))) := by
  have hn := System.Ready_commandRefusal h1 h2 h3 h4
  simp [System.pack, hn, h, h5]

/-- All that START can do when it answers (R120). -/
theorem System.startStep_eq_next {n : Nat} (h : c.startStep n = .next d) :
    c.phase ≠ .run ∧ n < 2 ^ p.LW ∧ c.inSpace.size = n ∧
      ((n % p.W ≠ 0 ∧ d = c.reportInvalidLength n) ∨
       (n % p.W = 0 ∧ nout p n ≤ c.outSpace.size ∧ d = c.enterRun n)) := by
  unfold System.startStep at h
  split at h
  · cases h
  · rename_i hn
    obtain ⟨h1, h2, h3, h4⟩ := System.commandRefusal_eq_none.1 hn
    refine ⟨h1, h2, h3, ?_⟩
    split at h
    · cases h; exact .inl ⟨‹_›, rfl⟩
    · rename_i h0
      have h0 : n % p.W = 0 := not_not.1 h0
      cases h; exact .inr ⟨h0, h4 h0, rfl⟩

/-- All that ACC can do when it answers (R124). -/
theorem System.accStep_eq_next (h : c.accStep = .next d) :
    c.accSelected ∧ ∃ e, c.inSpace.read c.idx = some e ∧ d = c.accumulate e := by
  unfold System.accStep at h
  split at h
  · rename_i hs
    split at h
    · cases h; exact ⟨hs, _, System.readIn_eq_ok.1 ‹_›, rfl⟩
    · cases h
  · cases h

/-- All that EMIT can do when it answers (R140). -/
theorem System.emitStep_eq_next (h : c.emitStep = .next d) :
    c.emitSelected ∧ c.optr + 1 < c.outSpace.size ∧ d = c.emitPair := by
  unfold System.emitStep at h
  split at h
  · rename_i hs
    split at h
    · cases h; exact ⟨hs, ‹_›, rfl⟩
    · cases h
  · cases h

/-- All that FINISH can do when it answers (R143). -/
theorem System.finishStep_eq_next (h : c.finishStep = .next d) : c.finishSelected ∧ d = c.finishWith .ok := by
  unfold System.finishStep at h
  split at h
  · cases h; exact ⟨‹_›, rfl⟩
  · cases h

/-! Where a step is selected, what it comes down to. -/

theorem System.accStep_of_selected (h : c.accSelected) :
    c.accStep = match c.readIn c.idx with | .ok e => .next (c.accumulate e) | .error f => .fault f := if_pos h

theorem System.emitStep_of_selected (h : c.emitSelected) :
    c.emitStep = if c.optr + 1 < c.outSpace.size then .next c.emitPair else .fault .outIndexOutOfRange := if_pos h

theorem System.finishStep_of_selected (h : c.finishSelected) : c.finishStep = .next (c.finishWith .ok) := if_pos h

/-- All that a host move on IN or OUT can do when it answers (R204): only outside `RUN`, and only the two spaces and the
answers. -/
theorem System.bufferMove_eq_next {m : BufferMove p} (h : c.bufferMove m = .next d) :
    c.phase ≠ .run ∧
      ((∃ l, m = .bindIn l ∧ d = c.setIn (Space.ofList l)) ∨
       (∃ n v, m = .bindOut n v ∧ d = c.setOut (Space.filled n v)) ∨
       (∃ i e, m = .writeIn i e ∧ i < c.inSpace.size ∧ d = c.setIn (c.inSpace.write i e)) ∨
       (∃ i, m = .readIn i ∧ i < c.inSpace.size ∧ d = c.tell (.scalar (c.inSpace.read i))) ∨
       (∃ j v, m = .writeOut j v ∧ j < c.outSpace.size ∧ d = c.setOut (c.outSpace.write j v)) ∨
       (∃ j, m = .readOut j ∧ j < c.outSpace.size ∧ d = c.tell (.word (c.outSpace.read j)))) := by
  cases m <;> simp only [System.bufferMove] at h <;> split at h <;> try (cases h; done)
  all_goals first
    | (cases h; exact ⟨‹_›, by simp⟩)
    | (split at h
       · cases h; exact ⟨‹_›, by simp_all⟩
       · cases h)

/-- The meaning of an operation over one system. -/
def meaningOf (i : Instr) (c : System p) : Host.Outcome (System p) Fault Refusal :=
  match i with
  | .pack n   => c.pack n
  | .rdstatus => .next (c.tell (.status c.statusWord))
  | .start n  => c.startStep n
  | .acc      => c.accStep
  | .emit     => c.emitStep
  | .finish   => c.finishStep

theorem exec_eq_meaningOf (i : Instr) (c : System p) : exec i ⟨p, c⟩ = inMachine p (meaningOf i c) := by
  cases i <;> rfl

/-- An operation that answers does so by its meaning over the system. -/
theorem exec_eq_next {i : Instr} {t : State} (h : exec i ⟨p, c⟩ = .next t) :
    ∃ d, t = ⟨p, d⟩ ∧ meaningOf i c = .next d := by
  rw [exec_eq_meaningOf] at h
  obtain ⟨d, hd, rfl⟩ := inMachine_eq_next h
  exact ⟨d, rfl, hd⟩

/-- All that one step can do when it answers: an operation, a host move, or a quiet turn. -/
theorem step_eq_next {t : State} (h : step ⟨p, c⟩ = .next t) :
    (∃ r c' i, c.fetch = .request r c' ∧ decode p r = .ok i ∧ exec i ⟨p, c'⟩ = .next t) ∨
    (∃ m c' d, c.fetch = .buffer m c' ∧ c'.bufferMove m = .next d ∧ t = ⟨p, d⟩) ∨
    (∃ d, c.fetch = .quiet d ∧ t = ⟨p, d⟩) := by
  unfold step at h
  simp only at h
  split at h
  · rename_i r c' hf
    split at h
    · exact .inl ⟨r, c', _, hf, ‹_›, h⟩
    · cases h
  · rename_i m c' hf
    obtain ⟨d, hd, rfl⟩ := inMachine_eq_next h
    exact .inr (.inl ⟨m, c', d, hf, hd, rfl⟩)
  · rename_i d hf
    cases h; exact .inr (.inr ⟨d, hf, rfl⟩)
  · cases h

end Sys2Proof.Machine
end

