-- ==== Sys2Proof/Laws/Fetch.lean ====
section
/-! SUPPORT. Step selection and the fetch: which request each state presents (spec/30_encoding.md R82). -/

namespace Sys2Proof.Machine

variable {p : Params} {c d : System p}

/-! ### The selector vector -/

/-- R82's table: the row each state's selector vector hits. -/
theorem System.selectStep_selector (c : System p) :
    selectStep c.selector =
      some (if c.phase ≠ .run then .start else if c.digit = p.W then .emit else if c.idx = c.len then .finish else .acc) := by
  unfold System.selector System.runFlag System.fullFlag System.lastFlag
  by_cases h1 : c.phase = .run <;> by_cases h2 : c.digit = p.W <;> by_cases h3 : c.idx = c.len <;>
    simp only [h1, h2, h3, decide_true, decide_false, ne_eq, not_true, not_false_iff, if_true, if_false] <;> rfl

theorem System.decode_selector_none (h : c.phase = .run) :
    decode p (.sel c.selector none) =
      .ok (if c.digit = p.W then .emit else if c.idx = c.len then .finish else .acc) := by
  simp only [decode, System.selectStep_selector, h, ne_eq, not_true, if_false]
  by_cases h2 : c.digit = p.W <;> by_cases h3 : c.idx = c.len <;> simp [h2, h3]

theorem System.decode_selector_idle (h : c.phase ≠ .run) :
    decode p (.sel c.selector none) = .error .noStep := by
  simp [decode, System.selectStep_selector, h]

theorem System.decode_selector_some (h : c.phase ≠ .run) {n : Nat} (hn : n < 2 ^ p.LW) :
    decode p (.sel c.selector (some n)) = .ok (.start n) := by
  simp [decode, System.selectStep_selector, h, hn]

theorem System.decode_selector_busy (h : c.phase = .run) (n : Nat) :
    decode p (.sel c.selector (some n)) = .error .commandWhileRunning := by
  simp only [decode, System.selectStep_selector, h, ne_eq, not_true, if_false]
  by_cases h2 : c.digit = p.W <;> by_cases h3 : c.idx = c.len <;> simp [h2, h3]

/-! ### The agenda -/

@[simp] theorem System.setAgenda_agenda_self (c : System p) : c.setAgenda c.agenda = c := rfl
@[simp] theorem System.setAgenda_setAgenda (c : System p) (l l' : List (HostMove p)) :
    (c.setAgenda l).setAgenda l' = c.setAgenda l' := rfl
@[simp] theorem System.setAgenda_selector (c : System p) (l : List (HostMove p)) :
    (c.setAgenda l).selector = c.selector := rfl
@[simp] theorem System.setAgenda_statusWord (c : System p) (l : List (HostMove p)) :
    (c.setAgenda l).statusWord = c.statusWord := rfl

theorem System.packerTurn_eq_request {r : Request} (h : c.packerTurn = .request r d) :
    c.phase = .run ∧ r = .sel c.selector none ∧ d = c := by
  unfold System.packerTurn at h
  split at h
  · cases h; exact ⟨‹_›, rfl, rfl⟩
  · cases h

theorem System.packerTurn_eq_quiet (h : c.packerTurn = .quiet d) : c.phase ≠ .run ∧ d = c := by
  unfold System.packerTurn at h
  split at h
  · cases h
  · cases h; exact ⟨‹_›, rfl⟩

theorem System.packerTurn_ne_buffer {m : BufferMove p} : c.packerTurn ≠ .buffer m d := by
  unfold System.packerTurn; split <;> simp

/-- A request changes nothing but the agenda. -/
theorem System.fetch_eq_request {r : Request} (h : c.fetch = .request r d) :
    ∃ l, d = c.setAgenda l ∧
      ((c.phase = .run ∧ r = .sel c.selector none) ∨ (∃ n, r = .sel c.selector (some n)) ∨
        (∃ n, r = .cmd n) ∨ r = .statusRead) := by
  unfold System.fetch at h
  split at h
  case h_1 =>
    obtain ⟨h1, h2, rfl⟩ := System.packerTurn_eq_request h
    exact ⟨d.agenda, rfl, .inl ⟨h1, h2⟩⟩
  case h_2 rest _ =>
    obtain ⟨h1, h2, rfl⟩ := System.packerTurn_eq_request h
    exact ⟨rest, rfl, .inl ⟨h1, h2⟩⟩
  case h_3 =>
    split at h
    · cases h
    · obtain ⟨h1, h2, rfl⟩ := System.packerTurn_eq_request h
      exact ⟨d.agenda, rfl, .inl ⟨h1, h2⟩⟩
  case h_4 => cases h; exact ⟨_, rfl, .inr (.inr (.inl ⟨_, rfl⟩))⟩
  case h_5 => cases h; exact ⟨_, rfl, .inr (.inl ⟨_, rfl⟩)⟩
  case h_6 => cases h
  case h_7 => cases h; exact ⟨_, rfl, .inr (.inr (.inr rfl))⟩
  all_goals cases h

/-- A host move on the buffers changes nothing before it but the agenda. -/
theorem System.fetch_eq_buffer {m : BufferMove p} (h : c.fetch = .buffer m d) : ∃ l, d = c.setAgenda l := by
  unfold System.fetch at h
  split at h
  case h_1 => exact absurd h System.packerTurn_ne_buffer
  case h_2 => exact absurd h System.packerTurn_ne_buffer
  case h_3 =>
    split at h
    · cases h
    · exact absurd h System.packerTurn_ne_buffer
  case h_9 => cases h; exact ⟨_, rfl⟩
  all_goals cases h

/-- A quiet turn changes nothing but the agenda, or it is the reset event. -/
theorem System.fetch_eq_quiet (h : c.fetch = .quiet d) :
    ∃ l, d = c.setAgenda l ∨ d = (c.setAgenda l).hardReset := by
  unfold System.fetch at h
  split at h
  case h_1 => obtain ⟨_, rfl⟩ := System.packerTurn_eq_quiet h; exact ⟨d.agenda, .inl rfl⟩
  case h_2 rest _ => obtain ⟨_, rfl⟩ := System.packerTurn_eq_quiet h; exact ⟨rest, .inl rfl⟩
  case h_3 rest _ =>
    split at h
    · cases h; exact ⟨rest, .inl rfl⟩
    · obtain ⟨_, rfl⟩ := System.packerTurn_eq_quiet h; exact ⟨d.agenda, .inl rfl⟩
  case h_6 rest _ => cases h; exact ⟨rest, .inl rfl⟩
  case h_10 rest _ => cases h; exact ⟨rest, .inr rfl⟩
  all_goals cases h

/-- With an empty agenda a running packer takes the step its selector names. -/
theorem step_of_running (h : c.phase = .run) (ha : c.agenda = []) :
    step ⟨p, c⟩ = exec (if c.digit = p.W then .emit else if c.idx = c.len then .finish else .acc) ⟨p, c⟩ := by
  have hf : c.fetch = .request (.sel c.selector none) c := by
    simp [System.fetch, ha, System.packerTurn, h]
  simp only [step, hf, System.decode_selector_none h]

end Sys2Proof.Machine
end

