-- ==== Sys2Proof/Laws/Flags.lean ====
section
/-! SUPPORT. The `STATUS` word by its bits and by its values (spec/10_state.md R33). -/

namespace Sys2Proof.Machine

variable {p : Params} {c : System p}

theorem System.statusWord_bits (c : System p) :
    c.statusWord.getLsbD 0 = c.busyBit ∧ c.statusWord.getLsbD 1 = c.doneBit ∧ c.statusWord.getLsbD 2 = c.errBit := by
  unfold System.statusWord
  cases c.busyBit <;> cases c.doneBit <;> cases c.errBit <;> decide

theorem System.statusWord_idle (h : c.phase = .idle) : c.statusWord = 0b000#3 := by
  simp [System.statusWord, System.busyBit, System.doneBit, System.errBit, h]

theorem System.statusWord_run (h : c.phase = .run) : c.statusWord = 0b001#3 := by
  simp [System.statusWord, System.busyBit, System.doneBit, System.errBit, h]

theorem System.statusWord_done_ok (h : c.phase = .done) (hr : c.res = .ok) : c.statusWord = 0b010#3 := by
  simp [System.statusWord, System.busyBit, System.doneBit, System.errBit, h, hr]

theorem System.statusWord_done_invalid (h : c.phase = .done) (hr : c.res = .invalidLength) :
    c.statusWord = 0b110#3 := by
  simp [System.statusWord, System.busyBit, System.doneBit, System.errBit, h, hr]

end Sys2Proof.Machine
end

