-- ==== Sys2Proof/Laws/PerInstr.lean ====
section
/-! SUPPORT. Statements made for every operation, one lemma per constructor (LAWS.json). -/

namespace Sys2Proof.Laws

/-- The step an operation's row names in the selection table; the two host operations are no steps (R79). -/
def stepOf : Instr → Option StepName
  | .pack _   => none
  | .rdstatus => none
  | .start _  => some .start
  | .acc      => some .acc
  | .emit     => some .emit
  | .finish   => some .finish

/-- The selector words of an encoding are hit by exactly one row of the table, the operation's own (R82: "Exactly one row
matches every state"); a host operation's encoding holds no selector word. -/
def EncodingRow.Statement (i : Instr) : Prop :=
  match encode i with
  | .sel v _ => (selTable.filter (SelRow.hits · v)).map SelRow.step = (stepOf i).toList
  | _        => stepOf i = none

theorem EncodingRow.pack (n : Nat) : EncodingRow.Statement (.pack n) := rfl
theorem EncodingRow.rdstatus : EncodingRow.Statement .rdstatus := rfl
theorem EncodingRow.start (n : Nat) : EncodingRow.Statement (.start n) := by
  show (selTable.filter (SelRow.hits · 0b000#3)).map SelRow.step = [.start]; decide
theorem EncodingRow.acc : EncodingRow.Statement .acc := by
  show (selTable.filter (SelRow.hits · 0b100#3)).map SelRow.step = [.acc]; decide
theorem EncodingRow.emit : EncodingRow.Statement .emit := by
  show (selTable.filter (SelRow.hits · 0b110#3)).map SelRow.step = [.emit]; decide
theorem EncodingRow.finish : EncodingRow.Statement .finish := by
  show (selTable.filter (SelRow.hits · 0b101#3)).map SelRow.step = [.finish]; decide

end Sys2Proof.Laws
end

