-- ==== Sys2Proof/Laws/Runs.lean ====
section
/-! SUPPORT. A run of the machine, one step at a time: the host's `Host.Core.run` unfolded once. -/

namespace Sys2Proof.Machine

theorem run_zero (s : State) : Host.Core.run Sys2Proof.core 0 s = .next s := rfl

theorem run_succ_of_core (M : Host.Core) (k : Nat) (s : M.State) :
    M.run (k + 1) s =
      match M.step s with
      | .next t    => M.run k t
      | .fault r   => .fault r
      | .refused r => .refused r := rfl

theorem run_succ (k : Nat) (s : State) :
    Host.Core.run Sys2Proof.core (k + 1) s =
      match step s with
      | .next t    => Host.Core.run Sys2Proof.core k t
      | .fault r   => .fault r
      | .refused r => .refused r := by
  refine (run_succ_of_core Sys2Proof.core k s).trans ?_
  have hs : Sys2Proof.core.step s = step s := rfl
  rw [hs]
  rcases step s with t | r | r <;> rfl

theorem run_succ_of_next {k : Nat} {s t : State} (h : step s = .next t) :
    Host.Core.run Sys2Proof.core (k + 1) s = Host.Core.run Sys2Proof.core k t := by
  rw [run_succ, h]

/-- A run that answers after one more step has taken that step. -/
theorem step_of_run_succ {k : Nat} {s t : State} (h : Host.Core.run Sys2Proof.core (k + 1) s = .next t) :
    ∃ u, step s = .next u ∧ Host.Core.run Sys2Proof.core k u = .next t := by
  rw [run_succ] at h
  cases hs : step s with
  | next u => rw [hs] at h; exact ⟨u, rfl, h⟩
  | fault r => rw [hs] at h; cases h
  | refused r => rw [hs] at h; cases h

end Sys2Proof.Machine
end

