-- ==== Sys2Proof/Tests/Slice0.lean ====
section
/-! SUPPORT. Small tests of one step each, their expected results from spec/95_test_vectors.md; the smoke tests of `Instr.wf`;
words written out from the encodings; and for every statement with hypotheses a state that meets them. -/

namespace Sys2Proof.Tests

open Sys2Proof Sys2Proof.Machine

/-! ### Builders -/

abbrev p4 : Params := ⟨4, 8, 8, by decide, by decide, by decide⟩
abbrev p1 : Params := ⟨1, 8, 8, by decide, by decide, by decide⟩

/-- The reset state with IN bound to `l` and OUT to `cap` words of 5. -/
def loaded (p : Params) (l : List Nat) (cap : Nat) : System p :=
  { (State.resetOf p).sys with
      inSpace := Space.ofList (l.map (BitVec.ofNat p.SW)),
      outSpace := Space.filled cap (some (BitVec.ofNat p.W 5)) }

/-- `W = 4`, `phase = RUN`, with the registers of the step vectors. -/
def running (l : List Nat) (cap lsb msb digit idx optr len : Nat) : System p4 :=
  { loaded p4 l cap with
      phase := .run, lsbAcc := BitVec.ofNat 4 lsb, msbAcc := BitVec.ofNat 4 msb,
      digit := digit, idx := idx, optr := optr, len := len }

/-- The state an answer holds. -/
def after (r : Host.Outcome State Fault Refusal) : Option State :=
  match r with
  | .next t => some t
  | _       => none

/-- The refusal an answer holds. -/
def refusal (r : Host.Outcome State Fault Refusal) : Option Refusal :=
  match r with
  | .refused f => some f
  | _          => none

/-- OUT as numbers, word by word. -/
def outWords (s : State) : List (Option Nat) :=
  (List.range s.sys.outSpace.size).map (fun j => (s.sys.outSpace.read j).map BitVec.toNat)

/-- `lsbAcc`, `msbAcc`, `digit`, `idx`, `optr`, `len`. -/
def regs (s : State) : List Nat :=
  [s.sys.lsbAcc.toNat, s.sys.msbAcc.toNat, s.sys.digit, s.sys.idx, s.sys.optr, s.sys.len]

/-! ### Well-formedness: each check refuses a term -/

theorem test_wf_refuses_wide_pack : (Instr.pack 256).wf p4 = false := by decide
theorem test_wf_refuses_wide_start : (Instr.start 256).wf p4 = false := by decide
theorem test_wf_takes_the_widest_length : (Instr.pack 255).wf p4 = true ∧ (Instr.start 255).wf p4 = true := by decide

/-! ### Decoding: words written out from R73 and R82 -/

theorem test_decode_pack : decode p4 (.cmd 0b00001000) = .ok (.pack 8) := by rfl
theorem test_decode_rdstatus : decode p4 .statusRead = .ok .rdstatus := by rfl
theorem test_decode_start : decode p4 (.sel 0b001#3 (some 8)) = .ok (.start 8) := by rfl
theorem test_decode_acc : decode p4 (.sel 0b100#3 none) = .ok .acc := by rfl
theorem test_decode_emit : decode p4 (.sel 0b110#3 none) = .ok .emit := by rfl
theorem test_decode_emit_before_finish : decode p4 (.sel 0b111#3 none) = .ok .emit := by rfl
theorem test_decode_finish : decode p4 (.sel 0b101#3 none) = .ok .finish := by rfl
theorem test_decode_refuses_wide_word : decode p4 (.cmd 256) = .error .lengthTooWide := by rfl
theorem test_decode_refuses_command_in_run : decode p4 (.sel 0b100#3 (some 8)) = .error .commandWhileRunning := by rfl
theorem test_decode_refuses_no_step : decode p4 (.sel 0b011#3 none) = .error .noStep := by rfl

/-! ### One step of each operation -/

/-- V1: the source's own scenario, `[0, 1, 2, 3]` gives `[0xA, 0xC]`. -/
theorem test_pack_V1 : (after (exec (.pack 4) ⟨p4, loaded p4 [0, 1, 2, 3] 2⟩)).map outWords = some [some 0xA, some 0xC] := by
  decide

/-- V2, D23: an invalid length writes nothing. -/
theorem test_pack_D23 : (after (exec (.pack 5) ⟨p4, loaded p4 [1, 1, 1, 1, 1] 4⟩)).map
    (fun t => (outWords t, t.sys.phase, t.sys.res, regs t)) =
    some ([some 5, some 5, some 5, some 5], .done, .invalidLength, [0, 0, 0, 0, 0, 5]) := by decide

/-- RDSTATUS vectors: `DONE` with `InvalidLength` reads `0b110`. -/
theorem test_rdstatus_invalid : (after (exec .rdstatus ⟨p4, { loaded p4 [] 0 with phase := .done, res := .invalidLength }⟩)).map
    (fun t => decide (t.sys.answers.map (fun a => match a with | .status v => v.toNat | _ => 9) = [0b110])) = some true := by
  decide

/-- RDSTATUS vectors: `RUN` reads `0b001`. -/
theorem test_rdstatus_run : (after (exec .rdstatus ⟨p4, running [0, 1, 2, 3] 2 0 0 0 0 0 4⟩)).map
    (fun t => decide (t.sys.answers.map (fun a => match a with | .status v => v.toNat | _ => 9) = [0b001])) = some true := by
  decide

/-- START vectors, row 3: from `DONE` with an error, the error is cleared. -/
theorem test_start_clears_error : (after (exec (.start 4)
      ⟨p4, { loaded p4 [0, 1, 2, 3] 2 with phase := .done, res := .invalidLength, len := 5 }⟩)).map
    (fun t => (t.sys.phase, t.sys.res, regs t)) = some (.run, .ok, [0, 0, 0, 0, 0, 4]) := by decide

/-- R41, U10: a length that is not the size of IN is refused, an invalid one too. -/
theorem test_pack_mismatch : refusal (exec (.pack 5) ⟨p4, loaded p4 [1, 1, 1] 4⟩) = some .lengthMismatch ∧
    refusal (exec (.start 5) ⟨p4, loaded p4 [1, 1, 1, 1] 4⟩) = some .lengthMismatch := by decide

/-- START vectors, row 4: length 6. -/
theorem test_start_invalid : (after (exec (.start 6) ⟨p4, loaded p4 [0, 1, 2, 3, 0, 1] 2⟩)).map
    (fun t => (t.sys.phase, t.sys.res, regs t)) = some (.done, .invalidLength, [0, 0, 0, 0, 0, 6]) := by decide

/-- ACC vectors, row 7: `0xFE` at the last position; only bits 1 and 0 count. -/
theorem test_acc_row7 : (after (exec .acc ⟨p4, running [0, 0, 0, 0xFE] 2 0b0000 0b0000 3 3 0 4⟩)).map regs =
    some [0b0000, 0b1000, 4, 4, 0, 4] := by decide

/-- ACC vectors, row 4: `2` at position 2. -/
theorem test_acc_row4 : (after (exec .acc ⟨p4, running [0, 1, 2, 3] 2 0b0010 0b0000 2 2 0 4⟩)).map regs =
    some [0b0010, 0b0100, 3, 3, 0, 4] := by decide

/-- EMIT vectors, row 1. -/
theorem test_emit_row1 : (after (exec .emit ⟨p4, running [0, 1, 2, 3] 2 0b1010 0b1100 4 4 0 4⟩)).map
    (fun t => (outWords t, regs t)) = some ([some 0xA, some 0xC], [0, 0, 0, 4, 2, 4]) := by decide

/-- EMIT vectors, row 3: the word after the pair stays. -/
theorem test_emit_row3 : (after (exec .emit ⟨p4, running [1, 1, 1, 1] 3 0b1111 0b0000 4 4 0 4⟩)).map outWords =
    some [some 0xF, some 0x0, some 5] := by decide

/-- FINISH vectors, row 1. -/
theorem test_finish_row1 : (after (exec .finish ⟨p4, running [0, 1, 2, 3] 2 0 0 0 4 2 4⟩)).map
    (fun t => (t.sys.phase, t.sys.res, regs t)) = some (.done, .ok, [0, 0, 0, 4, 2, 4]) := by decide

/-- Step selection, row 6: with `full` and `last` both, FINISH is not selected. -/
theorem test_finish_not_before_emit : refusal (exec .finish ⟨p4, running [0, 1, 2, 3] 2 0b1010 0b1100 4 4 0 4⟩) =
    some .stepNotSelected := by decide

/-- R202: a reset in `RUN` leaves the words below `NOUT` without a known value and the others alone. -/
theorem test_reset_in_run : (after (step ⟨p4, { running [0, 1, 2, 3] 3 1 1 1 1 0 4 with agenda := [.reset] }⟩)).map
    (fun t => (outWords t, t.sys.phase)) = some ([none, none, some 5], .idle) := by decide

/-- The first step after reset on a placed word is the word's own. -/
theorem test_fetch_word_runs : (after (step (State.reset.withFetchWord 8 0x4))).map regs = some [0, 0, 1, 1, 0, 4] := by
  decide

/-! ### Hypotheses that can be met -/

theorem ready_4 : (loaded p4 [0, 1, 2, 3] 2).Ready 4 := ⟨by decide, by decide, by decide, by decide, by decide⟩
theorem ready_4_high : (loaded p4 [4, 5, 6, 7] 2).Ready 4 := ⟨by decide, by decide, by decide, by decide, by decide⟩
theorem ready_0 : (loaded p4 [] 0).Ready 0 := ⟨by decide, by decide, by decide, by decide, by decide⟩
theorem ready_width_one : (loaded p1 [2, 1] 4).Ready 2 := ⟨by decide, by decide, by decide, by decide, by decide⟩

/-- `StartChecksTheLengthAndClears`: both clauses, next to one another at `W`. -/
theorem witness_start :
    ((loaded p4 [1, 2, 3] 0).phase ≠ .run ∧ 3 < 2 ^ p4.LW ∧ (loaded p4 [1, 2, 3] 0).inSpace.size = 3 ∧ 3 % p4.W ≠ 0) ∧
    ((loaded p4 [0, 1, 2, 3] 2).phase ≠ .run ∧ 4 < 2 ^ p4.LW ∧ (loaded p4 [0, 1, 2, 3] 2).inSpace.size = 4 ∧
      4 % p4.W = 0 ∧ 2 * (4 / p4.W) ≤ (loaded p4 [0, 1, 2, 3] 2).outSpace.size) := by decide

/-- `AccReadsPlacesAndAdvances` and `AccSetsTheBitAtDigit`: the last position of a block. -/
theorem witness_acc :
    let c := running [0, 1, 2, 3] 2 0b0010 0b0100 3 3 0 4
    c.phase = .run ∧ c.digit < p4.W ∧ c.idx < c.len ∧ c.inSpace.read c.idx = some 3#8 ∧
      c.lsbAcc.getLsbD c.digit = false ∧ c.msbAcc.getLsbD c.digit = false := by dsimp only; decide

/-- `AccNeverClearsABit`, and the operations' frame, phase and control statements, at ACC; a bit that is set, and one apart
from `digit`. -/
theorem witness_acc_answers :
    let c := running [0, 1, 2, 3] 2 0b0010 0b0100 3 3 0 4
    exec .acc ⟨p4, c⟩ = .next ⟨p4, c.accumulate 3#8⟩ ∧ c.phase = .run ∧ c.lsbAcc.getLsbD 1 = true ∧
      c.msbAcc.getLsbD 2 = true ∧ 1 ≠ c.digit := ⟨rfl, by decide⟩

/-- `EmitAppendsThePairAndClears`: the last two words of OUT. -/
theorem witness_emit :
    let c := running [0, 1, 2, 3] 2 0b1010 0b1100 4 4 0 4
    c.phase = .run ∧ c.digit = p4.W ∧ c.optr + 1 < c.outSpace.size := by dsimp only; decide

/-- `FinishReportsSuccess`, and the clause of `OnlyFinishLeavesRun` for FINISH. -/
theorem witness_finish :
    let c := running [0, 1, 2, 3] 2 0 0 0 4 2 4
    c.phase = .run ∧ c.digit ≠ p4.W ∧ c.idx = c.len ∧ exec .finish ⟨p4, c⟩ = .next ⟨p4, c.finishWith .ok⟩ :=
  ⟨by decide, by decide, by decide, rfl⟩

/-- `InvalidPackChangesOnlyTheReport`, `FailedPackLeavesOnlyItsReport`, and the second clauses of the two statements about
runs. -/
theorem witness_invalid_pack :
    let c := loaded p4 [1, 1, 1, 1, 1] 4
    c.agenda = [] ∧ c.phase ≠ .run ∧ 5 < 2 ^ p4.LW ∧ c.inSpace.size = 5 ∧ 5 % p4.W ≠ 0 := by dsimp only; decide

/-- `PackWritesThePlaneWords`, `PackedWordsReconstructTheScalars`, `StepLevelAgreesWithPack`, `PackEndsAfterExactlyItsSteps`;
the empty input as well. -/
theorem witness_pack :
    ((loaded p4 [0, 1, 2, 3] 2).Ready 4 ∧ 4 % p4.W = 0 ∧ (loaded p4 [0, 1, 2, 3] 2).agenda = []) ∧
    ((loaded p4 [] 0).Ready 0 ∧ 0 % p4.W = 0 ∧ (loaded p4 [] 0).agenda = []) :=
  ⟨⟨ready_4, by decide, rfl⟩, ⟨ready_0, by decide, rfl⟩⟩

/-- `PackOfNothingIsValid`. -/
theorem witness_pack_of_nothing : (loaded p4 [] 0).phase ≠ .run ∧ (loaded p4 [] 0).inSpace.size = 0 := by decide

/-- `WidthOneIsNeverInvalid`. -/
theorem witness_width_one : p1.W = 1 ∧ (loaded p1 [2, 1] 4).Ready 2 := ⟨rfl, ready_width_one⟩

/-- `OutputsAgreeExactlyWhenPlanesAgree`: two inputs that differ above bit 1 only. -/
theorem witness_two_packs :
    (loaded p4 [0, 1, 2, 3] 2).Ready 4 ∧ (loaded p4 [4, 5, 6, 7] 2).Ready 4 ∧ 4 % p4.W = 0 :=
  ⟨ready_4, ready_4_high, by decide⟩

/-- `CommandsSeeNoEarlierRegister`: two systems that differ in every working register. -/
theorem witness_earlier_registers :
    let c := loaded p4 [0, 1, 2, 3] 2
    let c' := { c with lsbAcc := 9#4, msbAcc := 6#4, digit := 3, idx := 7, optr := 2, len := 8, phase := .done, res := .invalidLength }
    c.phase ≠ .run ∧ c'.phase ≠ .run ∧ c.inSpace = c'.inSpace ∧ c.outSpace = c'.outSpace ∧ c.agenda = c'.agenda ∧
      c.answers = c'.answers := by dsimp only; decide

/-- `PackTwiceIsPackOnce`. -/
theorem witness_pack_twice :
    (loaded p4 [0, 1, 2, 3] 2).Ready 4 ∧ (loaded p4 [0, 1, 2, 3] 2).outSpace.wf ∧ 4 % p4.W = 0 :=
  ⟨ready_4, by decide, by decide⟩

/-- `InvalidLengthAsksNothingOfOut`: no room in OUT and an element without a value, then nothing bound at all. -/
theorem witness_invalid_length :
    let c := { loaded p4 [] 0 with inSpace := ⟨255, []⟩ }
    (c.phase ≠ .run ∧ 255 < 2 ^ p4.LW ∧ 255 % p4.W ≠ 0 ∧ c.inSpace.size = 255) ∧
    ((loaded p4 [] 0).phase ≠ .run ∧ 1 < 2 ^ p4.LW ∧ 1 % p4.W ≠ 0 ∧ (loaded p4 [] 0).inSpace.size ≠ 1) := by
  dsimp only; decide

/-- `CommandWithoutItsPremisesIsRefused`: one state for each clause, at the first length too wide, at an IN one element short,
at an OUT one word short. -/
theorem witness_refused_commands :
    (running [0, 1, 2, 3] 2 0 0 0 0 0 4).phase = .run ∧
    ((loaded p4 [] 0).phase ≠ .run ∧ 2 ^ p4.LW ≤ 256) ∧
    ((loaded p4 [0, 1, 2] 2).phase ≠ .run ∧ 4 < 2 ^ p4.LW ∧ (loaded p4 [0, 1, 2] 2).inSpace.size ≠ 4) ∧
    ((loaded p4 [0, 1, 2, 3] 1).phase ≠ .run ∧ 4 < 2 ^ p4.LW ∧ 4 % p4.W = 0 ∧ (loaded p4 [0, 1, 2, 3] 1).inSpace.size = 4 ∧
      (loaded p4 [0, 1, 2, 3] 1).outSpace.size < 2 * (4 / p4.W)) := by decide

/-- `UnwrittenElementFaults`: an IN of four elements, the last without a value. -/
theorem witness_unwritten :
    let m : Space p4.SW := ⟨4, [(0, 0#8), (1, 1#8), (2, 2#8)]⟩
    let c := { running [] 2 0 0 3 3 0 4 with inSpace := m }
    let d := { loaded p4 [] 2 with inSpace := m }
    (3 < c.inSpace.size ∧ c.inSpace.read 3 = none ∧ c.phase = .run ∧ c.digit < p4.W ∧ c.idx = 3 ∧ 3 < c.len) ∧
    (3 < d.inSpace.size ∧ d.inSpace.read 3 = none ∧ d.phase ≠ .run ∧ d.inSpace.size < 2 ^ p4.LW ∧
      d.inSpace.size % p4.W = 0 ∧ 2 * (d.inSpace.size / p4.W) ≤ d.outSpace.size) := by dsimp only; decide

/-- `DataNeverSteersControl`: two runs that differ in scalars and accumulators. -/
theorem witness_control :
    let c := running [0, 1, 2, 3] 2 0b0010 0b0100 3 3 0 4
    let c' := running [3, 3, 3, 0] 2 0b0111 0b0111 3 3 0 4
    (c.phase = c'.phase ∧ c.res = c'.res ∧ c.digit = c'.digit ∧ c.idx = c'.idx ∧ c.optr = c'.optr ∧ c.len = c'.len) ∧
    exec .acc ⟨p4, c⟩ = .next ⟨p4, c.accumulate 3#8⟩ ∧ exec .acc ⟨p4, c'⟩ = .next ⟨p4, c'.accumulate 0#8⟩ :=
  ⟨by decide, rfl, rfl⟩

/-- `SelectorSelectsOneStep`: the four clauses (the rows of the vectors' step-selection table). -/
theorem witness_selector :
    ((running [0, 1, 2, 3] 2 0 0 4 4 0 4).phase = .run ∧ (running [0, 1, 2, 3] 2 0 0 4 4 0 4).digit = p4.W) ∧
    ((running [0, 1, 2, 3] 2 0 0 0 4 2 4).phase = .run ∧ (running [0, 1, 2, 3] 2 0 0 0 4 2 4).digit ≠ p4.W ∧
      (running [0, 1, 2, 3] 2 0 0 0 4 2 4).idx = (running [0, 1, 2, 3] 2 0 0 0 4 2 4).len) ∧
    ((running [0, 1, 2, 3] 2 0 0 3 3 0 4).phase = .run ∧ (running [0, 1, 2, 3] 2 0 0 3 3 0 4).digit ≠ p4.W ∧
      (running [0, 1, 2, 3] 2 0 0 3 3 0 4).idx ≠ (running [0, 1, 2, 3] 2 0 0 3 3 0 4).len) ∧
    (loaded p4 [] 0).phase ≠ .run := by decide

/-- `StepIsRefusedExactlyWhenNotSelected`: its hypothesis, and a state on each side of the equivalence. -/
theorem witness_selected_or_refused :
    (Instr.acc = .acc ∨ Instr.acc = .emit ∨ Instr.acc = .finish) ∧
    refusal (exec .acc ⟨p4, running [0, 1, 2, 3] 2 0 0 3 3 0 4⟩) = none ∧
    refusal (exec .acc ⟨p4, running [0, 1, 2, 3] 2 0 0 4 4 0 4⟩) = some .stepNotSelected := by decide

/-- `StepRunsTheDecodedOperation`: a fetch that presents a request, a running packer, and a host command at the widest
length. -/
theorem witness_step_runs :
    let c := running [0, 1, 2, 3] 2 0 0 3 3 0 4
    c.fetch = .request (.sel c.selector none) c ∧ decode p4 (.sel c.selector none) = .ok .acc ∧ c.phase = .run ∧
      c.agenda = [] ∧ (loaded p4 [] 0).phase ≠ .run ∧ 255 < 2 ^ p4.LW := by
  refine ⟨rfl, rfl, ?_⟩
  decide

/-- `EncodedOperationDecodesToItself` and `DecodedWordsAreTheEncoding`: the widest length, and EMIT's other word. -/
theorem witness_encoding :
    (Instr.start 255).wf p4 = true ∧ decode p4 (encode (.start 255)) = .ok (.start 255) ∧
      decode p4 (.sel 0b111#3 none) = .ok .emit := ⟨by decide, rfl, rfl⟩

/-- `ResetPutsEveryRegister`, `ResetWhileRunningForgetsOut`, and `HostAccessesOnlyOutsideRun` at the last index of each
space. -/
theorem witness_reset_and_host :
    let c := loaded p4 [0, 1, 2, 3] 2
    (c.phase ≠ .run ∧ 1 < c.outSpace.size ∧ 3 < c.inSpace.size) ∧ (running [0, 1, 2, 3] 2 0 0 3 3 0 4).phase = .run := by dsimp only; decide

/-- `HostAccessOutsideItsSpaceFaults`: the first index past each space. -/
theorem witness_outside_space :
    let c := loaded p4 [0, 1, 2, 3] 2
    c.phase ≠ .run ∧ c.outSpace.size ≤ 2 ∧ c.inSpace.size ≤ 4 := by dsimp only; decide

theorem running_inv : (running [0, 1, 2, 3] 2 0b0010 0b0100 3 3 0 4).Inv where
  inWf := by decide
  outWf := by decide
  run := fun _ =>
    { lenValid := by decide, lenFits := by decide, inLength := by decide, capOk := by decide, digitLe := by decide,
      optrEven := by decide, idxEq := by decide, idxLe := by decide, lsbBelow := by decide, msbBelow := by decide,
      lsbAbove := by decide, msbAbove := by decide, blocksDone := by decide, optrLe := by decide,
      roomAtFull := by decide, resOk := by decide }
  done := by decide
  idle := by decide

/-- `RunningPackerIsNeverStuck`, `RunKeepsTheTailOfOut` and `EveryStepKeepsTheInvariant`: one system in the middle of a block
meets all hypotheses of the three. -/
theorem witness_running :
    let c := running [0, 1, 2, 3] 2 0b0010 0b0100 3 3 0 4
    c.Inv ∧ (⟨p4, c⟩ : State).Inv ∧ c.phase = .run ∧ c.agenda = [] ∧ (∀ i < c.len, (c.inSpace.read i).isSome = true) ∧
      step ⟨p4, c⟩ = .next ⟨p4, c.accumulate 3#8⟩ :=
  ⟨running_inv, running_inv, by decide, by decide, by decide, rfl⟩

/-- `InterleavedPackersRunAsIfAlone`: two packers, the second with `W = 1`, a schedule that runs through. -/
theorem witness_schedule :
    let f : List State := [⟨p4, running [0, 1, 2, 3] 2 0b0010 0b0100 3 3 0 4⟩, ⟨p1, loaded p1 [2, 1] 4⟩]
    (∃ g, runSchedule [1, 0, 1] f = .next g) ∧
      ∀ (k : Nat) (s : State), f[k]? = some s → ∃ t : State, Host.Core.run Sys2Proof.core ([1, 0, 1].count k) s = .next t := by
  refine ⟨⟨_, rfl⟩, ?_⟩
  rintro (_ | _ | k) s h <;> cases h <;> exact ⟨_, rfl⟩

end Sys2Proof.Tests
end

/-! PROOFS. Which blocks can be built (spec/00_scope.md R5, R6). -/

namespace Sys2Proof.Proofs

/-- R6, U7: `W` is looked at first, so the other two numbers cannot hide this refusal. -/
theorem instantiate_zero_wordWidth (SW LW : Nat) : Params.instantiate 0 SW LW = .error .zeroWordWidth :=
  dif_neg (by decide)

theorem instantiate_of_legal {W SW LW : Nat} (hW : 1 ≤ W) (hS : 2 ≤ SW) (hL : 1 ≤ LW) :
    Params.instantiate W SW LW = .ok ⟨W, SW, LW, hW, hS, hL⟩ := by
  simp only [Params.instantiate, dif_pos hW, dif_pos hS, dif_pos hL]

/-- Settles O33. The bounds a built block obeys are its own proof fields; conversely, legal numbers pass the three checks
and become the block's fields unchanged. -/
theorem blockIsBuiltExactlyForLegalParameters : Obligations.BlockIsBuiltExactlyForLegalParameters := by
  refine ⟨instantiate_zero_wordWidth, fun W SW LW => ⟨?built, ?legal⟩⟩
  case built =>
    rintro ⟨p, -, rfl, rfl, rfl⟩
    exact ⟨p.W_pos, p.SW_two, p.LW_pos⟩
  case legal =>
    rintro ⟨hW, hS, hL⟩
    exact ⟨_, instantiate_of_legal hW hS hL, rfl, rfl, rfl⟩

end Sys2Proof.Proofs

/-! PROOFS. The state: moves of `phase` (spec/10_state.md R29), `STATUS` (R33), what a command sees of the registers (R34)
and the reset state (R35). -/

namespace Sys2Proof.Proofs

open Sys2Proof.Machine

/-! ### Moves of `phase` -/

section PhaseMoves

variable {p : Params} {c d : System p}

@[simp] theorem phaseMove_self (x : Phase) : phaseMove x x = true := by cases x <;> rfl
@[simp] theorem phaseMove_to_run (x : Phase) : phaseMove x .run = true := by cases x <;> rfl
@[simp] theorem phaseMove_to_done (x : Phase) : phaseMove x .done = true := by cases x <;> rfl

/-- R29. All that an operation can do to `phase` when it answers: a command moves it from outside `RUN` to `RUN` or `DONE`,
FINISH from `RUN` to `DONE`, and the others leave it. -/
theorem phase_after_meaningOf {i : Instr} (h : meaningOf i c = .next d) :
    d.phase = c.phase ∨
    (c.phase ≠ .run ∧ (d.phase = .run ∨ d.phase = .done)) ∨
    (i = .finish ∧ d.phase = .done) := by
  cases i with
  | pack n =>
    obtain ⟨hrun, -, -, ⟨-, rfl⟩ | ⟨-, -, -, rfl⟩⟩ := System.pack_eq_next h
    · exact .inr (.inl ⟨hrun, .inr rfl⟩)
    · exact .inr (.inl ⟨hrun, .inr rfl⟩)
  | rdstatus =>
    cases h
    exact .inl rfl
  | start n =>
    obtain ⟨hrun, -, -, ⟨-, rfl⟩ | ⟨-, -, rfl⟩⟩ := System.startStep_eq_next h
    · exact .inr (.inl ⟨hrun, .inr rfl⟩)
    · exact .inr (.inl ⟨hrun, .inl rfl⟩)
  | acc =>
    obtain ⟨-, e, -, rfl⟩ := System.accStep_eq_next h
    exact .inl rfl
  | emit =>
    obtain ⟨-, -, rfl⟩ := System.emitStep_eq_next h
    exact .inl rfl
  | finish =>
    obtain ⟨-, rfl⟩ := System.finishStep_eq_next h
    exact .inr (.inr ⟨rfl, rfl⟩)

end PhaseMoves

/-- Settles O21, from the three moves an operation can make: none of them ends in `IDLE` from elsewhere, and a command's
starts outside `RUN`. -/
theorem onlyFinishLeavesRun : Obligations.OnlyFinishLeavesRun := by
  intro p c d i h
  obtain ⟨_, ⟨⟩, hd⟩ := exec_eq_next h
  obtain hsame | ⟨hrun, hto⟩ | ⟨hi, hdone⟩ := phase_after_meaningOf hd
  case inl => exact ⟨by simp [hsame], fun hc => .inl (hsame.trans hc)⟩
  case inr.inl =>
    refine ⟨?_, fun hc => absurd hc hrun⟩
    obtain hto | hto := hto <;> simp [hto]
  case inr.inr => exact ⟨by simp [hdone], fun _ => .inr ⟨hi, hdone⟩⟩

/-! ### What a command sees of the registers -/

section EarlierRegisters

variable {p : Params} {c c' : System p}

/-- Two systems that may differ in R20's registers only: the two spaces, and what the host plans and knows, are the same. -/
structure SameButRegisters (c c' : System p) : Prop where
  inSpace  : c.inSpace = c'.inSpace
  outSpace : c.outSpace = c'.outSpace
  agenda   : c.agenda = c'.agenda
  answers  : c.answers = c'.answers

/-! The three ends of a command write every register (R34): what an earlier command left there is gone. -/

theorem reportInvalidLength_congr (h : SameButRegisters c c') (n : Nat) :
    c.reportInvalidLength n = c'.reportInvalidLength n := by
  ext1 <;> simp [h.inSpace, h.outSpace, h.agenda, h.answers]

theorem enterRun_congr (h : SameButRegisters c c') (n : Nat) : c.enterRun n = c'.enterRun n := by
  ext1 <;> simp [h.inSpace, h.outSpace, h.agenda, h.answers]

theorem completePack_congr (h : SameButRegisters c c') (n : Nat) (out : Space p.W) :
    c.completePack n out = c'.completePack n out := by
  ext1 <;> simp [h.inSpace, h.agenda, h.answers]

/-- Of the registers, a command's premises ask for `phase` only, and of it only whether it is `RUN`. -/
theorem commandRefusal_congr (h : SameButRegisters c c') (hc : c.phase ≠ .run) (hc' : c'.phase ≠ .run) (n : Nat) :
    c.commandRefusal n = c'.commandRefusal n := by
  simp only [System.commandRefusal, if_neg hc, if_neg hc', h.inSpace, h.outSpace]

theorem pack_congr (h : SameButRegisters c c') (hc : c.phase ≠ .run) (hc' : c'.phase ≠ .run) (n : Nat) :
    c.pack n = c'.pack n := by
  simp only [System.pack, commandRefusal_congr h hc hc', reportInvalidLength_congr h, completePack_congr h, h.inSpace,
    h.outSpace]

theorem startStep_congr (h : SameButRegisters c c') (hc : c.phase ≠ .run) (hc' : c'.phase ≠ .run) (n : Nat) :
    c.startStep n = c'.startStep n := by
  simp only [System.startStep, commandRefusal_congr h hc hc', reportInvalidLength_congr h, enterRun_congr h]

end EarlierRegisters

/-- Settles O14: the premises see no register outside `RUN`, and each end of a command overwrites them all. -/
theorem commandsSeeNoEarlierRegister : Obligations.CommandsSeeNoEarlierRegister := by
  intro p c c' n hc hc' hin hout hagenda hanswers
  have h : SameButRegisters c c' := ⟨hin, hout, hagenda, hanswers⟩
  exact ⟨congrArg (inMachine p) (pack_congr h hc hc' n), congrArg (inMachine p) (startStep_congr h hc hc' n)⟩

/-! ### `STATUS` -/

section Status

variable {p : Params} {c d : System p}

/-- R33: the value of `STATUS` for each phase and result. -/
theorem statusWord_cases (c : System p) :
    (c.phase = .idle ∧ c.statusWord = 0b000#3) ∨ (c.phase = .run ∧ c.statusWord = 0b001#3) ∨
    (c.phase = .done ∧ c.res = .ok ∧ c.statusWord = 0b010#3) ∨
    (c.phase = .done ∧ c.res = .invalidLength ∧ c.statusWord = 0b110#3) := by
  cases hphase : c.phase with
  | idle => simp [System.statusWord_idle hphase]
  | run => simp [System.statusWord_run hphase]
  | done =>
    cases hres : c.res with
    | ok => simp [System.statusWord_done_ok hphase hres]
    | invalidLength => simp [System.statusWord_done_invalid hphase hres]

theorem statusWord_mem (c : System p) : c.statusWord ∈ [0b000#3, 0b001#3, 0b010#3, 0b110#3] := by
  obtain ⟨-, h⟩ | ⟨-, h⟩ | ⟨-, -, h⟩ | ⟨-, -, h⟩ := statusWord_cases c <;> simp [h]

theorem statusWord_eq_zero_iff (c : System p) : c.statusWord = 0b000#3 ↔ c.phase = .idle := by
  obtain ⟨hphase, h⟩ | ⟨hphase, h⟩ | ⟨hphase, -, h⟩ | ⟨hphase, -, h⟩ := statusWord_cases c <;> simp [hphase, h]

/-- A quiet turn leaves the machine in the system its fetch gives. -/
theorem step_of_fetch_quiet (h : c.fetch = .quiet d) : step ⟨p, c⟩ = .next ⟨p, d⟩ := by
  simp only [step, h]

/-- A host write of the read-only `STATUS` is a quiet turn, whatever value it carries. -/
theorem fetch_writeReg_status (c : System p) (v : Nat) (rest : List (HostMove p)) :
    (c.setAgenda (.writeReg .status v :: rest)).fetch = .quiet (c.setAgenda rest) := rfl

end Status

/-- Settles O31, from the value of `STATUS` in each phase and from what the host's write of it fetches. -/
theorem statusTakesFourValues : Obligations.StatusTakesFourValues := fun _ c v rest =>
  ⟨statusWord_mem c, statusWord_eq_zero_iff c, step_of_fetch_quiet (fetch_writeReg_status c v rest)⟩

/-! ### Reset -/

/-- Settles O41. The unbound spaces are canonical, and `IDLE` with `res = OK` asks for nothing of the other clauses. -/
theorem resetHasTheInvariant : Obligations.ResetHasTheInvariant := fun _ =>
  { inWf  := Space.blank_wf 0
    outWf := Space.blank_wf 0
    run   := nofun
    done  := nofun
    idle  := fun _ => rfl }

end Sys2Proof.Proofs

/-! PROOFS. The data spaces IN and OUT: what a command asks of them before it has a meaning (spec/20_memory.md R41, R42,
R45), what the operations write and leave there (R40, R43, R46 to R48), and the host's accesses
(spec/70_reset_and_hazards.md R203 to R208). -/

namespace Sys2Proof.Proofs

open Sys2Proof.Machine

/-! ### What a command asks of the spaces -/

section CommandPremises

variable {p : Params} {c : System p} {n : Nat}

/-! The premises in the order they are asked: each lemma gives the first one that fails. -/

theorem commandRefusal_of_run (hrun : c.phase = .run) (n : Nat) : c.commandRefusal n = some .packWhileRunning :=
  if_pos hrun

theorem commandRefusal_of_tooWide (hrun : c.phase ≠ .run) (hn : 2 ^ p.LW ≤ n) :
    c.commandRefusal n = some .lengthTooWide := by
  rw [System.commandRefusal, if_neg hrun, if_pos hn]

theorem commandRefusal_of_size_ne (hrun : c.phase ≠ .run) (hn : n < 2 ^ p.LW) (hsize : c.inSpace.size ≠ n) :
    c.commandRefusal n = some .lengthMismatch := by
  rw [System.commandRefusal, if_neg hrun, if_neg (Nat.not_le.2 hn), if_pos hsize]

theorem commandRefusal_of_outTooSmall (hrun : c.phase ≠ .run) (hn : n < 2 ^ p.LW) (hsize : c.inSpace.size = n)
    (hvalid : n % p.W = 0) (hout : c.outSpace.size < nout p n) : c.commandRefusal n = some .outTooSmall := by
  rw [System.commandRefusal, if_neg hrun, if_neg (Nat.not_le.2 hn), if_neg (not_not.2 hsize), if_pos ⟨hvalid, hout⟩]

/-- PACK and START ask the same premises, before anything else (R176; log 12). -/
theorem commands_refused {r : Refusal} (h : c.commandRefusal n = some r) :
    exec (.pack n) ⟨p, c⟩ = .refused r ∧ exec (.start n) ⟨p, c⟩ = .refused r := by
  simp [System.pack, System.startStep, h]

/-- START reports an invalid length as PACK does (`System.pack_invalid`), without a look at OUT or at the elements. -/
theorem startStep_invalid (hrun : c.phase ≠ .run) (hn : n < 2 ^ p.LW) (hsize : c.inSpace.size = n)
    (hinvalid : n % p.W ≠ 0) : c.startStep n = .next (c.reportInvalidLength n) := by
  have hnone : c.commandRefusal n = none :=
    System.commandRefusal_eq_none.2 ⟨hrun, hn, hsize, fun hvalid => absurd hvalid hinvalid⟩
  simp [System.startStep, hnone, hinvalid]

end CommandPremises

/-- Settles O17: an invalid length passes every premise but the size of IN, and CapOK is asked of a valid one only. -/
theorem invalidLengthAsksNothingOfOut : Obligations.InvalidLengthAsksNothingOfOut := by
  intro p c n hrun hn hinvalid
  refine ⟨fun hsize => ⟨?pack, ?start⟩, fun hsize => commands_refused (commandRefusal_of_size_ne hrun hn hsize)⟩
  case pack => rw [exec_pack, System.pack_invalid hrun hn hsize hinvalid, inMachine_next]
  case start => rw [exec_start, startStep_invalid hrun hn hsize hinvalid, inMachine_next]

/-- Settles O18: each clause is the first premise that fails. -/
theorem commandWithoutItsPremisesIsRefused : Obligations.CommandWithoutItsPremisesIsRefused := fun _ _ n =>
  ⟨fun hrun => commands_refused (commandRefusal_of_run hrun n),
   fun hrun hn => commands_refused (commandRefusal_of_tooWide hrun hn),
   fun hrun hn hsize => commands_refused (commandRefusal_of_size_ne hrun hn hsize),
   fun hrun hn hvalid hsize hout => commands_refused (commandRefusal_of_outTooSmall hrun hn hsize hvalid hout)⟩

/-! ### Elements that nobody supplied -/

section UnwrittenElements

variable {p : Params} {c : System p} {i n : Nat}

theorem readIn_of_unwritten (hi : i < c.inSpace.size) (hnone : c.inSpace.read i = none) :
    c.readIn i = .error .unwrittenElement := by
  simp [System.readIn, hi, hnone]

theorem accStep_of_unwritten (hsel : c.accSelected) (hi : c.idx < c.inSpace.size)
    (hnone : c.inSpace.read c.idx = none) : c.accStep = .fault .unwrittenElement := by
  rw [System.accStep_of_selected hsel, readIn_of_unwritten hi hnone]

theorem not_complete_of_unwritten {w : Nat} {m : Space w} (hi : i < n) (hnone : m.read i = none) :
    ¬ m.complete n = true := by
  intro hcomplete
  have hsome := (m.complete_iff n).1 hcomplete i hi
  simp [hnone] at hsome

/-- PACK asks for every element before its first write, so one that is missing anywhere faults. -/
theorem pack_of_not_complete (hnone : c.commandRefusal n = none) (hvalid : n % p.W = 0)
    (hcomplete : ¬ c.inSpace.complete n = true) : c.pack n = .fault .unwrittenElement := by
  simp [System.pack, hnone, hvalid, hcomplete]

end UnwrittenElements

/-- Settles O19: ACC meets the missing element at `idx`, PACK in its check of the whole IN. -/
theorem unwrittenElementFaults : Obligations.UnwrittenElementFaults := by
  intro p c i hi hnone
  constructor
  · rintro hrun hdigit rfl hlen
    rw [exec_acc, accStep_of_unwritten ⟨hrun, hdigit.ne, hlen.ne⟩ hi hnone, inMachine_fault]
  · intro hrun hn hvalid hout
    have hpremises := System.Ready_commandRefusal hrun hn rfl hout
    rw [exec_pack, pack_of_not_complete hpremises hvalid (not_complete_of_unwritten hi hnone), inMachine_fault]

/-! ### What the operations write -/

section Writes

variable {p : Params} {c d : System p}

/-- R44: a write inside a space is read back, keeps every other element and the size. -/
theorem write_effect {w : Nat} (m : Space w) {j : Nat} (v : BitVec w) (hj : j < m.size) :
    (m.write j v).size = m.size ∧ (m.write j v).read j = some v ∧
      ∀ k, k ≠ j → (m.write j v).read k = m.read k :=
  ⟨m.write_size j v, m.read_write_same v hj, fun _ hk => m.read_write_other v hk⟩

theorem emitPair_outSpace_size (c : System p) : c.emitPair.outSpace.size = c.outSpace.size := by
  rw [System.emitPair_outSpace, Space.write_size, Space.write_size]

/-- R47, R140: EMIT keeps every word but the pair at `optr`. -/
theorem emitPair_read_other (c : System p) {j : Nat} (h₀ : j ≠ c.optr) (h₁ : j ≠ c.optr + 1) :
    c.emitPair.outSpace.read j = c.outSpace.read j := by
  rw [System.emitPair_outSpace, Space.read_write_other _ _ h₁, Space.read_write_other _ _ h₀]

/-- What an operation that answers leaves as it was: IN, the size of OUT and the agenda always (R40, R43), the host's answers
but for RDSTATUS, the words of OUT but for EMIT and PACK. -/
structure OperationFrame (i : Instr) (c d : System p) : Prop where
  inSpace  : d.inSpace = c.inSpace
  outSize  : d.outSpace.size = c.outSpace.size
  agenda   : d.agenda = c.agenda
  answers  : i ≠ .rdstatus → d.answers = c.answers
  outSpace : i ≠ .emit → (∀ n, i ≠ .pack n) → d.outSpace = c.outSpace

/-- An update that writes registers only keeps the frame of every operation. -/
theorem OperationFrame.of_registers (i : Instr) (hin : d.inSpace = c.inSpace) (hout : d.outSpace = c.outSpace)
    (hagenda : d.agenda = c.agenda) (hanswers : d.answers = c.answers) : OperationFrame i c d :=
  ⟨hin, congrArg Space.size hout, hagenda, fun _ => hanswers, fun _ _ => hout⟩

theorem operationFrame_of_meaningOf {i : Instr} (h : meaningOf i c = .next d) : OperationFrame i c d := by
  cases i with
  | pack n =>
    obtain ⟨-, -, -, ⟨-, rfl⟩ | ⟨-, -, -, rfl⟩⟩ := System.pack_eq_next h
    · exact .of_registers _ rfl rfl rfl rfl
    · exact ⟨rfl, writeBlocks_size _ _ _, rfl, fun _ => rfl, fun _ hpack => absurd rfl (hpack n)⟩
  | rdstatus =>
    cases h
    exact ⟨rfl, rfl, rfl, fun hread => absurd rfl hread, fun _ _ => rfl⟩
  | start n =>
    obtain ⟨-, -, -, ⟨-, rfl⟩ | ⟨-, -, rfl⟩⟩ := System.startStep_eq_next h
    · exact .of_registers _ rfl rfl rfl rfl
    · exact .of_registers _ rfl rfl rfl rfl
  | acc =>
    obtain ⟨-, e, -, rfl⟩ := System.accStep_eq_next h
    exact .of_registers _ rfl rfl rfl rfl
  | emit =>
    obtain ⟨-, -, rfl⟩ := System.emitStep_eq_next h
    exact ⟨rfl, emitPair_outSpace_size c, rfl, fun _ => rfl, fun hemit => absurd rfl hemit⟩
  | finish =>
    obtain ⟨-, rfl⟩ := System.finishStep_eq_next h
    exact .of_registers _ rfl rfl rfl rfl

/-- R47, R148 clause 4: of the packer's own steps only EMIT moves `optr` or writes OUT, and it writes below the new
`optr`. -/
theorem emitStep_keeps_tail (h : c.emitStep = .next d) :
    c.optr ≤ d.optr ∧ ∀ j, d.optr ≤ j → d.outSpace.read j = c.outSpace.read j := by
  obtain ⟨-, -, rfl⟩ := System.emitStep_eq_next h
  refine ⟨Nat.le_add_right _ 2, fun j hj => ?_⟩
  rw [System.emitPair_optr] at hj
  exact emitPair_read_other c (by omega) (by omega)

end Writes

/-- Settles O20, from the frame of an operation's meaning. -/
theorem operationsTouchOnlyWhatIsTheirs : Obligations.OperationsTouchOnlyWhatIsTheirs := by
  intro p c i t h
  obtain ⟨d, rfl, hd⟩ := exec_eq_next h
  obtain ⟨hin, hsize, hagenda, hanswers, hout⟩ := operationFrame_of_meaningOf hd
  exact ⟨d, rfl, hin, hsize, hagenda, hanswers, hout⟩

/-- Settles O39, by the step the selector names: EMIT stays below the new `optr`; FINISH and ACC touch neither `optr` nor
OUT. -/
theorem runKeepsTheTailOfOut : Obligations.RunKeepsTheTailOfOut := by
  intro p c t hrun hagenda h
  rw [step_of_running hrun hagenda] at h
  obtain ⟨d, rfl, hd⟩ := exec_eq_next h
  refine ⟨d, rfl, ?_⟩
  split at hd
  case isTrue => exact emitStep_keeps_tail hd
  case isFalse =>
    split at hd
    case isTrue =>
      obtain ⟨-, rfl⟩ := System.finishStep_eq_next hd
      exact ⟨le_rfl, fun _ _ => rfl⟩
    case isFalse =>
      obtain ⟨-, e, -, rfl⟩ := System.accStep_eq_next hd
      exact ⟨le_rfl, fun _ _ => rfl⟩

/-! ### The words of a PACK -/

section PackedWords

variable {p : Params} {c : System p} {n : Nat}

/-- With R204's premises a PACK of a valid length runs to its end. -/
theorem pack_of_ready (h : c.Ready n) (hvalid : n % p.W = 0) :
    c.pack n = .next (c.completePack n (writeBlocks p c.inSpace c.outSpace (n / p.W))) :=
  System.pack_valid h.notRunning h.fits hvalid h.inLength h.capOk ((Space.complete_iff _ n).2 h.elements)

/-- The `k`-th element of a whole block is one of the `n` elements. -/
theorem block_index_lt {w b k : Nat} (hb : b < n / w) (hk : k < w) : b * w + k < n :=
  calc b * w + k < b * w + w := Nat.add_lt_add_left hk _
    _ = (b + 1) * w := (Nat.succ_mul b w).symm
    _ ≤ n / w * w := Nat.mul_le_mul_right w hb
    _ ≤ n := Nat.div_mul_le_self n w

/-- R101: bit `k` of a block's two words, as the bits of an element that IN has. -/
theorem planeWords_bits_of_ready (h : c.Ready n) {b k : Nat} (hb : b < n / p.W) (hk : k < p.W) :
    ∃ e, c.inSpace.read (b * p.W + k) = some e ∧
      (lsbWord p c.inSpace b).getLsbD k = e.getLsbD 0 ∧ (msbWord p c.inSpace b).getLsbD k = e.getLsbD 1 :=
  ⟨_, Space.read_eq_some_scalar _ (h.elements _ (block_index_lt hb hk)),
    lsbWord_getLsbD p c.inSpace b hk, msbWord_getLsbD p c.inSpace b hk⟩

end PackedWords

/-- Settles O9: OUT is what the block writes of R100 leave, read pair by pair below `NOUT` and unchanged from there on. -/
theorem packWritesThePlaneWords : Obligations.PackWritesThePlaneWords := by
  intro p c n hready hvalid
  refine ⟨writeBlocks p c.inSpace c.outSpace (n / p.W), ?answer, writeBlocks_size _ _ _, ?pairs,
    writeBlocks_read_above _ _ _⟩
  case answer => exact congrArg (inMachine p) (pack_of_ready hready hvalid)
  case pairs =>
    intro b hb
    obtain ⟨hlsb, hmsb⟩ := writeBlocks_read_below c.inSpace c.outSpace _ b hb hready.capOk
    exact ⟨_, _, hlsb, hmsb, fun k hk => planeWords_bits_of_ready hready hb hk⟩

/-! ### The host's accesses -/

section HostAccesses

variable {p : Params} {c d : System p}

/-- A host move at the head of the agenda is carried out by `bufferMove`, in the system without it. -/
theorem step_buffer (c : System p) (m : BufferMove p) (rest : List (HostMove p)) :
    step ⟨p, c.setAgenda (.buffer m :: rest)⟩ = inMachine p ((c.setAgenda rest).bufferMove m) := rfl

/-- The name under which `RUN` refuses a host move: by the space it is about (R207, R208). -/
def accessRefusal : BufferMove p → Refusal
  | .bindIn _ | .writeIn _ _ | .readIn _ => .inAccessWhileRunning
  | .bindOut _ _ | .writeOut _ _ | .readOut _ => .outAccessWhileRunning

theorem bufferMove_of_run (hrun : c.phase = .run) (m : BufferMove p) :
    c.bufferMove m = .refused (accessRefusal m) := by
  cases m <;> exact if_pos hrun

theorem step_buffer_of_run (hrun : c.phase = .run) (m : BufferMove p) (rest : List (HostMove p)) :
    step ⟨p, c.setAgenda (.buffer m :: rest)⟩ = .refused (accessRefusal m) := by
  rw [step_buffer, bufferMove_of_run (c := c.setAgenda rest) hrun, inMachine_refused]

theorem step_buffer_of_next {m : BufferMove p} {rest : List (HostMove p)}
    (h : (c.setAgenda rest).bufferMove m = .next d) : step ⟨p, c.setAgenda (.buffer m :: rest)⟩ = .next ⟨p, d⟩ := by
  rw [step_buffer, h, inMachine_next]

theorem step_buffer_of_fault {m : BufferMove p} {rest : List (HostMove p)} {f : Fault}
    (h : (c.setAgenda rest).bufferMove m = .fault f) : step ⟨p, c.setAgenda (.buffer m :: rest)⟩ = .fault f := by
  rw [step_buffer, h, inMachine_fault]

/-! Outside `RUN`, move by move. -/

theorem bufferMove_bindIn (hrun : c.phase ≠ .run) (elems : List (Scalar p.SW)) :
    c.bufferMove (.bindIn elems) = .next (c.setIn (Space.ofList elems)) := if_neg hrun

theorem bufferMove_bindOut (hrun : c.phase ≠ .run) (cap : Nat) (fill : Option (PackedWord p.W)) :
    c.bufferMove (.bindOut cap fill) = .next (c.setOut (Space.filled cap fill)) := if_neg hrun

theorem bufferMove_writeIn (hrun : c.phase ≠ .run) (i : Nat) (e : Scalar p.SW) :
    c.bufferMove (.writeIn i e) =
      if i < c.inSpace.size then .next (c.setIn (c.inSpace.write i e)) else .fault .inIndexOutOfRange := if_neg hrun

theorem bufferMove_readIn (hrun : c.phase ≠ .run) (i : Nat) :
    c.bufferMove (.readIn i) =
      if i < c.inSpace.size then .next (c.tell (.scalar (c.inSpace.read i))) else .fault .inIndexOutOfRange :=
  if_neg hrun

theorem bufferMove_writeOut (hrun : c.phase ≠ .run) (j : Nat) (v : PackedWord p.W) :
    c.bufferMove (.writeOut j v) =
      if j < c.outSpace.size then .next (c.setOut (c.outSpace.write j v)) else .fault .outIndexOutOfRange :=
  if_neg hrun

theorem bufferMove_readOut (hrun : c.phase ≠ .run) (j : Nat) :
    c.bufferMove (.readOut j) =
      if j < c.outSpace.size then .next (c.tell (.word (c.outSpace.read j))) else .fault .outIndexOutOfRange :=
  if_neg hrun

end HostAccesses

/-- Settles O32: outside `RUN` each of the six moves by its equation, with the laws of the space it leaves; in `RUN` all six by
the one refusal. -/
theorem hostAccessesOnlyOutsideRun : Obligations.HostAccessesOnlyOutsideRun := by
  intro p c rest j v e elems cap fill
  refine ⟨?writeOut, ?writeIn, ?readOut, ?readIn, ?bindIn, ?bindOut, ?running⟩
  case writeOut =>
    intro (hrun : (c.setAgenda rest).phase ≠ .run) hj
    exact ⟨c.outSpace.write j v, step_buffer_of_next ((bufferMove_writeOut hrun j v).trans (if_pos hj)),
      write_effect c.outSpace v hj⟩
  case writeIn =>
    intro (hrun : (c.setAgenda rest).phase ≠ .run) hj
    exact ⟨c.inSpace.write j e, step_buffer_of_next ((bufferMove_writeIn hrun j e).trans (if_pos hj)),
      write_effect c.inSpace e hj⟩
  case readOut =>
    intro (hrun : (c.setAgenda rest).phase ≠ .run) hj
    exact step_buffer_of_next ((bufferMove_readOut hrun j).trans (if_pos hj))
  case readIn =>
    intro (hrun : (c.setAgenda rest).phase ≠ .run) hj
    exact step_buffer_of_next ((bufferMove_readIn hrun j).trans (if_pos hj))
  case bindIn =>
    intro (hrun : (c.setAgenda rest).phase ≠ .run)
    exact ⟨Space.ofList elems, step_buffer_of_next (bufferMove_bindIn hrun elems), Space.ofList_size elems,
      Space.read_ofList elems⟩
  case bindOut =>
    intro (hrun : (c.setAgenda rest).phase ≠ .run)
    exact ⟨Space.filled cap fill, step_buffer_of_next (bufferMove_bindOut hrun cap fill), Space.filled_size cap fill,
      fun _ hk => Space.read_filled fill hk⟩
  case running =>
    intro hrun
    have refused (m : BufferMove p) : step ⟨p, { c with agenda := .buffer m :: rest }⟩ = .refused (accessRefusal m) :=
      step_buffer_of_run hrun m rest
    exact ⟨refused _, refused _, refused _, refused _, refused _, refused _⟩

/-- Settles O43: the other branch of the same four equations. -/
theorem hostAccessOutsideItsSpaceFaults : Obligations.HostAccessOutsideItsSpaceFaults := by
  intro p c rest j v e (hrun : (c.setAgenda rest).phase ≠ .run)
  constructor
  · intro hj
    have hout : ¬ j < c.outSpace.size := Nat.not_lt.2 hj
    exact ⟨step_buffer_of_fault ((bufferMove_writeOut hrun j v).trans (if_neg hout)),
      step_buffer_of_fault ((bufferMove_readOut hrun j).trans (if_neg hout))⟩
  · intro hj
    have hin : ¬ j < c.inSpace.size := Nat.not_lt.2 hj
    exact ⟨step_buffer_of_fault ((bufferMove_writeIn hrun j e).trans (if_neg hin)),
      step_buffer_of_fault ((bufferMove_readIn hrun j).trans (if_neg hin))⟩

end Sys2Proof.Proofs

/-! PROOFS. Encoding and selection (spec/30_encoding.md): the plane bit that ACC sets (R77, R78), the reconstruction of the
scalars from a PACK's words (R72), the selection table (R82), the decoder against the encoder (R73, R83) and the operation
that a step runs. -/

namespace Sys2Proof.Proofs

open Sys2Proof.Machine

/-! ### The plane bits -/

/-- R78: where bit `digit` is clear, ORing a placed bit in is setting bit `digit` to it. -/
theorem or_place_getLsbD {w digit k : Nat} {acc : PackedWord w} (b : Bool) (hk : k < w)
    (hclear : acc.getLsbD digit = false) :
    (acc ||| place w b digit).getLsbD k = if k = digit then b else acc.getLsbD k := by
  rw [BitVec.getLsbD_or, place_getLsbD, decide_eq_true hk]
  by_cases hdigit : k = digit
  · subst hdigit; simp [hclear]
  · simp [hdigit]

/-- ACC where it is selected and its element has a value. -/
theorem accStep_of_read {p : Params} {c : System p} {e : Scalar p.SW} (hsel : c.accSelected)
    (hread : c.inSpace.read c.idx = some e) : c.accStep = .next (c.accumulate e) := by
  rw [System.accStep_of_selected hsel, System.readIn_eq_ok.2 hread]

/-- Settles O3: ACC ORs a placed bit into each accumulator, and bit `digit` of both is clear. -/
theorem accSetsTheBitAtDigit : Obligations.AccSetsTheBitAtDigit := by
  intro p c e hrun hdigit hidx hread hlsb hmsb
  have hacc : c.accStep = .next (c.accumulate e) := accStep_of_read ⟨hrun, hdigit.ne, hidx.ne⟩ hread
  exact ⟨c.accumulate e, congrArg (inMachine p) hacc,
    fun _ hk => ⟨or_place_getLsbD (lsbOf e) hk hlsb, or_place_getLsbD (msbOf e) hk hmsb⟩⟩

/-- Settles O10: element `i` is the one at position `i % W` of block `i / W`, whose two words O9 gives bit by bit. -/
theorem packedWordsReconstructTheScalars : Obligations.PackedWordsReconstructTheScalars := by
  intro p c n hready hvalid
  obtain ⟨out, hexec, -, hpairs, -⟩ := packWritesThePlaneWords p c n hready hvalid
  refine ⟨_, hexec, fun i hi => ?_⟩
  have hblock : i / p.W < n / p.W := Nat.div_lt_div_of_lt_of_dvd (Nat.dvd_of_mod_eq_zero hvalid) hi
  obtain ⟨l, m, hlsb, hmsb, hbits⟩ := hpairs (i / p.W) hblock
  obtain ⟨e, hread, hbit0, hbit1⟩ := hbits (i % p.W) (Nat.mod_lt i p.W_pos)
  rw [Nat.div_add_mod'] at hread
  exact ⟨e, l, m, hread, hlsb, hmsb, hbit0, hbit1⟩

/-! ### The selection table -/

/-! R82's rows as conditions on the selector vector. -/

theorem selectStep_eq_start_iff : ∀ v : SelWord, selectStep v = some .start ↔ v.getLsbD 2 = false := by decide

theorem selectStep_eq_acc_iff : ∀ v : SelWord, selectStep v = some .acc ↔ v = 0b100#3 := by decide

theorem selectStep_eq_emit_iff : ∀ v : SelWord, selectStep v = some .emit ↔ v = 0b110#3 ∨ v = 0b111#3 := by decide

theorem selectStep_eq_finish_iff : ∀ v : SelWord, selectStep v = some .finish ↔ v = 0b101#3 := by decide

/-- R82: "Exactly one row matches every state". -/
theorem selTable_one_hit : ∀ v : SelWord, (selTable.filter (SelRow.hits · v)).length = 1 := by decide

/-- Settles O23: the three rows of `RUN` are the branches of what the selector decodes to there. -/
theorem selectorSelectsOneStep : Obligations.SelectorSelectsOneStep := by
  refine ⟨fun p c => ⟨?emit, ?finish, ?acc, System.decode_selector_idle⟩, selTable_one_hit⟩
  case emit =>
    intro hrun hfull
    rw [System.decode_selector_none hrun, if_pos hfull]
  case finish =>
    intro hrun hfull hlast
    rw [System.decode_selector_none hrun, if_neg hfull, if_pos hlast]
  case acc =>
    intro hrun hfull hlast
    rw [System.decode_selector_none hrun, if_neg hfull, if_neg hlast]

/-! ### The decoder and the encoder -/

section Decoder

variable {p : Params} {i : Instr}

/-- R73, R83: a command word is a PACK of its own number, and only its width can be wrong. -/
theorem decode_cmd_eq_ok_iff {n : Nat} : decode p (.cmd n) = .ok i ↔ n < 2 ^ p.LW ∧ i = .pack n := by
  by_cases hn : n < 2 ^ p.LW <;> simp [decode, hn, eq_comm]

theorem decode_statusRead_eq_ok_iff : decode p .statusRead = .ok i ↔ i = .rdstatus := by
  simp [decode, eq_comm]

/-- R82: what a selector vector decodes to, with a command word and without one. -/
theorem decode_sel_eq_ok_iff {v : SelWord} {issued : Option Nat} :
    decode p (.sel v issued) = .ok i ↔
      (∃ n, selectStep v = some .start ∧ issued = some n ∧ n < 2 ^ p.LW ∧ i = .start n) ∨
      (issued = none ∧ ((selectStep v = some .acc ∧ i = .acc) ∨ (selectStep v = some .emit ∧ i = .emit) ∨
        (selectStep v = some .finish ∧ i = .finish))) := by
  cases hstep : selectStep v with
  | none => simp [decode, hstep]
  | some step =>
    cases step with
    | start =>
      cases issued with
      | none => simp [decode, hstep]
      | some n => by_cases hn : n < 2 ^ p.LW <;> simp [decode, hstep, hn, eq_comm]
    | acc | emit | finish => cases issued <;> simp [decode, hstep, eq_comm]

end Decoder

/-- Settles O26: each operation's words meet the condition of their format, a length being well formed. -/
theorem encodedOperationDecodesToItself : Obligations.EncodedOperationDecodesToItself := by
  intro p i hwf
  cases i with
  | pack n => exact decode_cmd_eq_ok_iff.2 ⟨of_decide_eq_true hwf, rfl⟩
  | rdstatus => exact decode_statusRead_eq_ok_iff.2 rfl
  | start n =>
    have hsel : selectStep 0b000#3 = some .start := (selectStep_eq_start_iff _).2 rfl
    exact decode_sel_eq_ok_iff.2 (.inl ⟨n, hsel, rfl, of_decide_eq_true hwf, rfl⟩)
  | acc => exact decode_sel_eq_ok_iff.2 (.inr ⟨rfl, .inl ⟨(selectStep_eq_acc_iff _).2 rfl, rfl⟩⟩)
  | emit => exact decode_sel_eq_ok_iff.2 (.inr ⟨rfl, .inr (.inl ⟨(selectStep_eq_emit_iff _).2 (.inl rfl), rfl⟩)⟩)
  | finish => exact decode_sel_eq_ok_iff.2 (.inr ⟨rfl, .inr (.inr ⟨(selectStep_eq_finish_iff _).2 rfl, rfl⟩)⟩)

/-- Settles O27, format by format: a table row without free bits leaves its encoding alone, EMIT's row a second vector and
START's row every vector with `sel[2] = 0`. -/
theorem decodedWordsAreTheEncoding : Obligations.DecodedWordsAreTheEncoding := by
  intro p r i h
  cases r with
  | cmd n =>
    obtain ⟨hn, rfl⟩ := decode_cmd_eq_ok_iff.1 h
    exact ⟨decide_eq_true hn, .inl rfl⟩
  | statusRead =>
    obtain rfl := decode_statusRead_eq_ok_iff.1 h
    exact ⟨rfl, .inl rfl⟩
  | sel v issued =>
    obtain ⟨n, hstart, rfl, hn, rfl⟩ | ⟨rfl, ⟨hacc, rfl⟩ | ⟨hemit, rfl⟩ | ⟨hfinish, rfl⟩⟩ := decode_sel_eq_ok_iff.1 h
    · exact ⟨decide_eq_true hn, .inr (.inr ⟨n, v, rfl, rfl, (selectStep_eq_start_iff v).1 hstart⟩)⟩
    · obtain rfl := (selectStep_eq_acc_iff v).1 hacc
      exact ⟨rfl, .inl rfl⟩
    · obtain rfl | rfl := (selectStep_eq_emit_iff v).1 hemit
      · exact ⟨rfl, .inl rfl⟩
      · exact ⟨rfl, .inr (.inl ⟨rfl, rfl⟩)⟩
    · obtain rfl := (selectStep_eq_finish_iff v).1 hfinish
      exact ⟨rfl, .inl rfl⟩

/-! ### The operation that a step runs -/

section FetchedOperation

variable {p : Params} {c d : System p}

/-- A request that decodes is run in the system its fetch leaves. -/
theorem step_of_fetch_request {r : Request} {i : Instr} (hfetch : c.fetch = .request r d)
    (hdecode : decode p r = .ok i) : step ⟨p, c⟩ = exec i ⟨p, d⟩ := by
  simp only [step, hfetch, hdecode]

theorem packerTurn_of_run (hrun : c.phase = .run) : c.packerTurn = .request (.sel c.selector none) c :=
  if_pos hrun

theorem fetch_of_agenda_nil (hagenda : c.agenda = []) : c.fetch = c.packerTurn := by
  simp only [System.fetch, hagenda]

/-! What the host's move at the head of the agenda fetches. -/

theorem fetch_yield (c : System p) (rest : List (HostMove p)) :
    (c.setAgenda (.yield :: rest)).fetch = (c.setAgenda rest).packerTurn := rfl

theorem fetch_pack (c : System p) (n : Nat) (rest : List (HostMove p)) :
    (c.setAgenda (.pack n :: rest)).fetch = .request (.cmd n) (c.setAgenda rest) := rfl

theorem fetch_writeReg_cmdLen (c : System p) (n : Nat) (rest : List (HostMove p)) :
    (c.setAgenda (.writeReg .cmdLen n :: rest)).fetch = .request (.sel c.selector (some n)) (c.setAgenda rest) := rfl

theorem fetch_readReg_status (c : System p) (rest : List (HostMove p)) :
    (c.setAgenda (.readReg .status :: rest)).fetch = .request .statusRead (c.setAgenda rest) := rfl

end FetchedOperation

/-- Settles O25: each clause is the first one, with what its turn fetches and what that decodes to. -/
theorem stepRunsTheDecodedOperation : Obligations.StepRunsTheDecodedOperation := by
  intro p c rest n i
  refine ⟨fun _ _ => step_of_fetch_request, ?running, ?yield, ?pack, ?command, ?status⟩
  case running =>
    intro hrun hagenda
    exact step_of_fetch_request ((fetch_of_agenda_nil hagenda).trans (packerTurn_of_run hrun))
  case yield =>
    intro (hrun : (c.setAgenda rest).phase = .run)
    exact step_of_fetch_request ((fetch_yield c rest).trans (packerTurn_of_run hrun))
  case pack =>
    intro hn
    exact step_of_fetch_request (fetch_pack c n rest) (decode_cmd_eq_ok_iff.2 ⟨hn, rfl⟩)
  case command =>
    intro hrun hn
    exact step_of_fetch_request (fetch_writeReg_cmdLen c n rest) (System.decode_selector_some hrun hn)
  case status =>
    exact step_of_fetch_request (fetch_readReg_status c rest) (decode_statusRead_eq_ok_iff.2 rfl)

end Sys2Proof.Proofs

/-! PROOFS. The PACK command and RDSTATUS (spec/40_pack_command.md): the words of a block as bits, as sums and as a fold
(R101, R111), what the words of a PACK depend on (R103, R107), the corner cases (R104, R106) and the read of `STATUS`
(R108). -/

namespace Sys2Proof.Proofs

open Sys2Proof.Machine

/-! ### The words of a block -/

/-- The model's recursive sum is the sum of R101. -/
theorem planeSum_eq_sum (f : Nat → Bool) (n : Nat) : planeSum f n = ∑ k ∈ Finset.range n, (f k).toNat * 2 ^ k := by
  induction n with
  | zero => rfl
  | succ n ih => rw [planeSum, ih, Finset.sum_range_succ]

/-- R101: a plane word as a number; the sum fits the word, so nothing is cut off. -/
theorem planeWord_toNat (w : Nat) (f : Nat → Bool) :
    (planeWord w f).toNat = ∑ k ∈ Finset.range w, (f k).toNat * 2 ^ k := by
  rw [planeWord, BitVec.toNat_ofNat, Nat.mod_eq_of_lt (planeSum_lt f w), planeSum_eq_sum]

theorem planeBits_sum_lt (w : Nat) (f : Nat → Bool) : ∑ k ∈ Finset.range w, (f k).toNat * 2 ^ k < 2 ^ w := by
  rw [← planeWord_toNat]
  exact (planeWord w f).isLt

/-- Settles O34: both words are plane words, read bit by bit and as numbers. -/
theorem planeWordsAsBitsAndAsSums : Obligations.PlaneWordsAsBitsAndAsSums := fun p m b =>
  ⟨fun _ hk => ⟨lsbWord_getLsbD p m b hk, msbWord_getLsbD p m b hk⟩,
    planeWord_toNat _ _, planeWord_toNat _ _, planeBits_sum_lt _ _, planeBits_sum_lt _ _⟩

theorem planeFold_succ (w : Nat) (f : Nat → Bool) (n : Nat) :
    planeFold w f (n + 1) = planeFold w f n ||| place w (f n) n := by
  simp [planeFold, List.range_succ]

/-- R111: after `n` positions the fold holds the plane bits below `n` and zeros from there on. -/
theorem planeFold_getLsbD (w : Nat) (f : Nat → Bool) (n : Nat) {k : Nat} (hk : k < w) :
    (planeFold w f n).getLsbD k = (decide (k < n) && f k) := by
  induction n with
  | zero => simp [planeFold]
  | succ n ih =>
    rw [planeFold_succ, BitVec.getLsbD_or, ih, place_getLsbD, decide_eq_true hk]
    obtain hlt | rfl | hgt := Nat.lt_trichotomy k n
    · simp [hlt, hlt.ne, Nat.lt_succ_of_lt hlt]
    · simp
    · simp [hgt.not_gt, hgt.ne', Nat.not_lt.2 (Nat.succ_le_of_lt hgt)]

theorem planeFold_eq_planeWord (w : Nat) (f : Nat → Bool) : planeFold w f w = planeWord w f := by
  apply BitVec.eq_of_getLsbD_eq
  intro k hk
  rw [planeFold_getLsbD w f w hk, planeWord_getLsbD]

/-- Settles O35: the fold over all `W` positions has the bits of the plane word. -/
theorem foldGivesThePlaneWords : Obligations.FoldGivesThePlaneWords := fun _ _ _ =>
  ⟨planeFold_eq_planeWord _ _, planeFold_eq_planeWord _ _⟩

/-! ### What the words of a PACK depend on -/

section WordsAndPlanes

variable {p : Params} {c : System p} {n : Nat}

/-- The indices below a valid length are the positions of its blocks. -/
theorem forall_lt_iff_forall_block {w n : Nat} {P : Nat → Prop} (hw : 0 < w) (hvalid : n % w = 0) :
    (∀ i < n, P i) ↔ ∀ b < n / w, ∀ k < w, P (b * w + k) := by
  constructor
  · intro h b hb k hk
    exact h _ (block_index_lt hb hk)
  · intro h i hi
    have hblock : i / w < n / w := Nat.div_lt_div_of_lt_of_dvd (Nat.dvd_of_mod_eq_zero hvalid) hi
    have hpos := h (i / w) hblock (i % w) (Nat.mod_lt i hw)
    rwa [Nat.div_add_mod'] at hpos

/-- The words below `NOUT` are the pairs of the blocks (R46). -/
theorem forall_lt_two_mul_iff_forall_pair {q : Nat} {P : Nat → Prop} :
    (∀ j < 2 * q, P j) ↔ ∀ b < q, P (2 * b) ∧ P (2 * b + 1) := by
  constructor
  · intro h b hb
    exact ⟨h _ (by omega), h _ (by omega)⟩
  · intro h j hj
    obtain ⟨b, rfl | rfl⟩ := Nat.even_or_odd' j
    · exact (h b (by omega)).1
    · exact (h b (by omega)).2

/-- A plane word loses nothing of its plane (R103) and depends on nothing else (R107). -/
theorem planeWord_eq_iff {w : Nat} {f g : Nat → Bool} : planeWord w f = planeWord w g ↔ ∀ k < w, f k = g k := by
  refine ⟨fun h k hk => ?_, planeWord_congr⟩
  have hbit : (planeWord w f).getLsbD k = (planeWord w g).getLsbD k := by rw [h]
  rw [planeWord_getLsbD, planeWord_getLsbD] at hbit
  simpa [hk] using hbit

theorem planesAgree_iff_words_eq {m m' : Space p.SW} (hvalid : n % p.W = 0) :
    planesAgree m m' n ↔ ∀ b < n / p.W, lsbWord p m b = lsbWord p m' b ∧ msbWord p m b = msbWord p m' b := by
  rw [planesAgree, forall_lt_iff_forall_block p.W_pos hvalid]
  simp only [lsbWord, msbWord, planeWord_eq_iff, forall_and]

/-- Block writes into two OUTs with room for them leave the same first words exactly when the blocks' words are the same. -/
theorem writeBlocks_reads_eq_iff {m m' : Space p.SW} {out out' : Space p.W} {q : Nat} (hroom : 2 * q ≤ out.size)
    (hroom' : 2 * q ≤ out'.size) :
    (∀ j < 2 * q, (writeBlocks p m out q).read j = (writeBlocks p m' out' q).read j) ↔
      ∀ b < q, lsbWord p m b = lsbWord p m' b ∧ msbWord p m b = msbWord p m' b := by
  rw [forall_lt_two_mul_iff_forall_pair]
  refine forall₂_congr fun b hb => ?_
  obtain ⟨hlsb, hmsb⟩ := writeBlocks_read_below m out q b hb hroom
  obtain ⟨hlsb', hmsb'⟩ := writeBlocks_read_below m' out' q b hb hroom'
  rw [hlsb, hmsb, hlsb', hmsb', Option.some_inj, Option.some_inj]

/-- With R204's premises PACK of a valid length completes, as the machine's answer. -/
theorem exec_pack_of_ready (h : c.Ready n) (hvalid : n % p.W = 0) :
    exec (.pack n) ⟨p, c⟩ = .next ⟨p, c.completePack n (writeBlocks p c.inSpace c.outSpace (n / p.W))⟩ :=
  congrArg (inMachine p) (pack_of_ready h hvalid)

end WordsAndPlanes

/-- Settles O13: both are the same as equality of the two words of every block. -/
theorem outputsAgreeExactlyWhenPlanesAgree : Obligations.OutputsAgreeExactlyWhenPlanesAgree := by
  intro p c c' n hready hready' hvalid
  refine ⟨_, _, exec_pack_of_ready hready hvalid, exec_pack_of_ready hready' hvalid, ?_⟩
  exact (writeBlocks_reads_eq_iff hready.capOk hready'.capOk).trans (planesAgree_iff_words_eq hvalid).symm

/-! ### A PACK that is repeated -/

section Repetition

variable {p : Params} {c : System p} {n : Nat}

/-- A PACK leaves the premises of the next one of the same length, if OUT keeps its size. -/
theorem ready_completePack (h : c.Ready n) {out : Space p.W} (hsize : out.size = c.outSpace.size) :
    (c.completePack n out).Ready n where
  notRunning := nofun
  fits       := h.fits
  inLength   := h.inLength
  elements   := h.elements
  capOk      := hsize ▸ h.capOk

/-- The block writes read IN only, so in a canonical OUT the second time changes nothing. -/
theorem writeBlocks_idem (m : Space p.SW) {out : Space p.W} {q : Nat} (hwf : out.wf) (hroom : 2 * q ≤ out.size) :
    writeBlocks p m (writeBlocks p m out q) q = writeBlocks p m out q := by
  have hwf₁ : (writeBlocks p m out q).wf := writeBlocks_wf m out q hwf
  have hroom₁ : 2 * q ≤ (writeBlocks p m out q).size := by rwa [writeBlocks_size]
  refine Space.eq_of_read (writeBlocks_wf m _ q hwf₁) hwf₁ (writeBlocks_size _ _ _) fun j => ?_
  obtain hbelow | habove := Nat.lt_or_ge j (2 * q)
  · exact (writeBlocks_reads_eq_iff hroom₁ hroom).2 (fun _ _ => ⟨rfl, rfl⟩) j hbelow
  · exact writeBlocks_read_above m _ q j habove

end Repetition

/-- Settles O15: PACK overwrites every register with the same values again, and its block writes are idempotent. -/
theorem packTwiceIsPackOnce : Obligations.PackTwiceIsPackOnce := by
  intro p c n hready hwf hvalid
  refine ⟨_, exec_pack_of_ready hready hvalid, ?_⟩
  rw [exec_pack_of_ready (ready_completePack hready (writeBlocks_size _ _ _)) hvalid, System.completePack_inSpace,
    System.completePack_outSpace, writeBlocks_idem c.inSpace hwf hready.capOk]
  rfl

/-! ### Corner cases of the length -/

/-- Settles O12: one divides every length, so this is O9 with block `i` the single element `i`. -/
theorem widthOneIsNeverInvalid : Obligations.WidthOneIsNeverInvalid := by
  intro p c n hW hready
  have hvalid : n % p.W = 0 := by rw [hW, Nat.mod_one]
  have hblocks : n / p.W = n := by rw [hW, Nat.div_one]
  have hindex (i : Nat) : i * p.W + 0 = i := by rw [hW, Nat.mul_one, Nat.add_zero]
  obtain ⟨out, hexec, -, hpairs, -⟩ := packWritesThePlaneWords p c n hready hvalid
  refine ⟨_, hexec, rfl, fun i hi => ?_⟩
  obtain ⟨l, m, hlsb, hmsb, hbits⟩ := hpairs i (hblocks.symm ▸ hi)
  obtain ⟨e, hread, hbit0, hbit1⟩ := hbits 0 p.W_pos
  rw [hindex] at hread
  exact ⟨e, l, m, hread, hlsb, hmsb, hbit0, hbit1⟩

section EmptyPack

variable {p : Params} {c : System p}

/-- R104: for the length 0 an empty IN is all that R204's premises ask; any OUT has room for no word. -/
theorem ready_zero (hrun : c.phase ≠ .run) (hsize : c.inSpace.size = 0) : c.Ready 0 where
  notRunning := hrun
  fits       := Nat.two_pow_pos _
  inLength   := hsize
  elements   := nofun
  capOk      := by simp [nout]

theorem completePack_zero (c : System p) (out : Space p.W) :
    c.completePack 0 out = { c.clearWork with len := 0, phase := .done, res := .ok, outSpace := out } := by
  simp [System.completePack, System.clearWork, nout]

end EmptyPack

/-- Settles O11: 0 is a valid length with no block to write. -/
theorem packOfNothingIsValid : Obligations.PackOfNothingIsValid := by
  intro p c hrun hsize
  rw [exec_pack_of_ready (ready_zero hrun hsize) (Nat.zero_mod p.W), Nat.zero_div, completePack_zero]
  rfl

/-! ### RDSTATUS -/

section StatusBits

variable {p : Params} (c : System p)

theorem statusWord_busy_iff : c.statusWord.getLsbD 0 = true ↔ c.phase = .run := by
  obtain ⟨hbusy, -, -⟩ := c.statusWord_bits
  rw [hbusy, System.busyBit, decide_eq_true_iff]

theorem statusWord_done_iff : c.statusWord.getLsbD 1 = true ↔ c.phase = .done := by
  obtain ⟨-, hdone, -⟩ := c.statusWord_bits
  rw [hdone, System.doneBit, decide_eq_true_iff]

theorem statusWord_err_iff : c.statusWord.getLsbD 2 = true ↔ c.phase = .done ∧ c.res = .invalidLength := by
  obtain ⟨-, -, herr⟩ := c.statusWord_bits
  rw [herr, System.errBit, decide_eq_true_iff]

end StatusBits

/-- Settles O7: RDSTATUS tells the host the `STATUS` word and does nothing else. -/
theorem rdstatusAnswersErrDoneBusy : Obligations.RdstatusAnswersErrDoneBusy := fun _ c =>
  ⟨c.statusWord, exec_rdstatus, statusWord_busy_iff c, statusWord_done_iff c, statusWord_err_iff c⟩

end Sys2Proof.Proofs

/-! PROOFS. Plane extraction and accumulation (spec/41_plane_extract_accumulate.md): START (R120), ACC (R124) and the bits
that ACC leaves as they are (R123). -/

namespace Sys2Proof.Proofs

open Sys2Proof.Machine

/-! ### The accumulators under ACC -/

/-- R123: ORing a bit in clears none. -/
theorem or_place_getLsbD_of_set {w digit k : Nat} {acc : PackedWord w} (b : Bool) (hset : acc.getLsbD k = true) :
    (acc ||| place w b digit).getLsbD k = true := by
  rw [BitVec.getLsbD_or, hset, Bool.true_or]

/-- R123: a placed bit is zero everywhere but at its own position. -/
theorem or_place_getLsbD_of_ne {w digit k : Nat} {acc : PackedWord w} (b : Bool) (hne : k ≠ digit) :
    (acc ||| place w b digit).getLsbD k = acc.getLsbD k := by
  rw [BitVec.getLsbD_or, place_getLsbD, decide_eq_false hne, Bool.and_false, Bool.false_and, Bool.or_false]

/-- Settles O4: an ACC that answers has ORed one placed bit into each accumulator. -/
theorem accNeverClearsABit : Obligations.AccNeverClearsABit := by
  intro p c d h k _
  obtain ⟨_, hstate, hacc⟩ := exec_eq_next h
  cases hstate
  obtain ⟨-, e, -, rfl⟩ := System.accStep_eq_next hacc
  exact ⟨or_place_getLsbD_of_set (lsbOf e), or_place_getLsbD_of_set (msbOf e),
    fun hne => ⟨or_place_getLsbD_of_ne (lsbOf e) hne, or_place_getLsbD_of_ne (msbOf e) hne⟩⟩

/-! ### START -/

/-- A START of a valid length enters `RUN`; `startStep_invalid` is its other outcome. -/
theorem startStep_valid {p : Params} {c : System p} {n : Nat} (hrun : c.phase ≠ .run) (hn : n < 2 ^ p.LW)
    (hsize : c.inSpace.size = n) (hvalid : n % p.W = 0) (hout : nout p n ≤ c.outSpace.size) :
    c.startStep n = .next (c.enterRun n) := by
  simp [System.startStep, System.Ready_commandRefusal hrun hn hsize hout, hvalid]

/-- Settles O1: the two outcomes are the updates `reportInvalidLength` and `enterRun`, written out. -/
theorem startChecksTheLengthAndClears : Obligations.StartChecksTheLengthAndClears := fun p _ _ hrun hn hsize =>
  ⟨fun hinvalid => congrArg (inMachine p) (startStep_invalid hrun hn hsize hinvalid),
    fun hvalid hout => congrArg (inMachine p) (startStep_valid hrun hn hsize hvalid hout)⟩

/-! ### ACC -/

/-- Settles O2: below `W` and `len` ACC is selected, and `accumulate` is the update that R124 writes out. -/
theorem accReadsPlacesAndAdvances : Obligations.AccReadsPlacesAndAdvances := fun p _ _ hrun hdigit hidx hread =>
  congrArg (inMachine p) (accStep_of_read ⟨hrun, hdigit.ne, hidx.ne⟩ hread)

end Sys2Proof.Proofs

/-! PROOFS. Block word generation (spec/42_block_word_generation.md): EMIT (R140) and FINISH (R143), the one step that is
selected (R145) and what control depends on (R144), the invariant that every step keeps (R148), the progress of a running
packer (R146, R149) and the agreement of its run with PACK (R150). -/

namespace Sys2Proof.Proofs

open Sys2Proof.Machine

/-! ### EMIT and FINISH -/

section EmitAndFinish

variable {p : Params} {c : System p}

/-- EMIT where it is selected and OUT has room for the pair. -/
theorem emitStep_of_room (hsel : c.emitSelected) (hroom : c.optr + 1 < c.outSpace.size) :
    c.emitStep = .next c.emitPair := by
  rw [System.emitStep_of_selected hsel, if_pos hroom]

/-- R140: where OUT has room, the two words of the pair read back as the two accumulators. -/
theorem emitPair_read_pair (hroom : c.optr + 1 < c.outSpace.size) :
    c.emitPair.outSpace.read c.optr = some c.lsbAcc ∧ c.emitPair.outSpace.read (c.optr + 1) = some c.msbAcc := by
  rw [System.emitPair_outSpace]
  constructor
  · rw [Space.read_write_other _ _ (Nat.succ_ne_self _).symm, Space.read_write_same _ _ (Nat.lt_of_succ_lt hroom)]
  · exact Space.read_write_same _ _ ((Space.write_size _ _ _).symm ▸ hroom)

end EmitAndFinish

/-- Settles O5: `emitPair` is the update that R140 writes out, and its two writes are the laws of OUT. -/
theorem emitAppendsThePairAndClears : Obligations.EmitAppendsThePairAndClears := by
  intro p c hrun hfull hroom
  obtain ⟨hlsb, hmsb⟩ := emitPair_read_pair hroom
  exact ⟨c.emitPair.outSpace, congrArg (inMachine p) (emitStep_of_room ⟨hrun, hfull⟩ hroom),
    emitPair_outSpace_size c, hlsb, hmsb, fun _ => emitPair_read_other c⟩

/-- Settles O6: with a block not full and no element left FINISH is selected. -/
theorem finishReportsSuccess : Obligations.FinishReportsSuccess := fun p _ hrun hfull hlast =>
  congrArg (inMachine p) (System.finishStep_of_selected ⟨hrun, hfull, hlast⟩)

/-! ### What control depends on -/

section Control

variable {p : Params} {c c' d d' : System p}

/-- Two systems with the same control registers; their scalars, accumulators and words may differ (R144). -/
structure SameControl (c c' : System p) : Prop where
  phase : c.phase = c'.phase
  res   : c.res = c'.res
  digit : c.digit = c'.digit
  idx   : c.idx = c'.idx
  optr  : c.optr = c'.optr
  len   : c.len = c'.len

theorem SameControl.selector (h : SameControl c c') : c.selector = c'.selector := by
  simp only [System.selector, System.runFlag, System.fullFlag, System.lastFlag, h.phase, h.digit, h.idx, h.len]

/-! A command's ends write all control registers from the length; a step's move each from its old value. -/

theorem sameControl_reportInvalidLength (c c' : System p) (n : Nat) :
    SameControl (c.reportInvalidLength n) (c'.reportInvalidLength n) := ⟨rfl, rfl, rfl, rfl, rfl, rfl⟩

theorem sameControl_enterRun (c c' : System p) (n : Nat) : SameControl (c.enterRun n) (c'.enterRun n) :=
  ⟨rfl, rfl, rfl, rfl, rfl, rfl⟩

theorem sameControl_completePack (c c' : System p) (n : Nat) (out out' : Space p.W) :
    SameControl (c.completePack n out) (c'.completePack n out') := ⟨rfl, rfl, rfl, rfl, rfl, rfl⟩

theorem SameControl.tell (h : SameControl c c') (a a' : Answer p) : SameControl (c.tell a) (c'.tell a') :=
  ⟨h.phase, h.res, h.digit, h.idx, h.optr, h.len⟩

theorem SameControl.accumulate (h : SameControl c c') (e e' : Scalar p.SW) :
    SameControl (c.accumulate e) (c'.accumulate e') :=
  ⟨h.phase, h.res, congrArg (· + 1) h.digit, congrArg (· + 1) h.idx, h.optr, h.len⟩

theorem SameControl.emitPair (h : SameControl c c') : SameControl c.emitPair c'.emitPair :=
  ⟨h.phase, h.res, rfl, h.idx, congrArg (· + 2) h.optr, h.len⟩

theorem SameControl.finishWith (h : SameControl c c') (r : Result) : SameControl (c.finishWith r) (c'.finishWith r) :=
  ⟨rfl, rfl, h.digit, h.idx, h.optr, h.len⟩

/-- R144, operation by operation: which of a command's two ends it is, its length alone says. -/
theorem SameControl.meaningOf {i : Instr} (h : SameControl c c') (hd : meaningOf i c = .next d)
    (hd' : meaningOf i c' = .next d') : SameControl d d' := by
  cases i with
  | pack n =>
    obtain ⟨-, -, -, ⟨hinvalid, rfl⟩ | ⟨hvalid, -, -, rfl⟩⟩ := System.pack_eq_next hd <;>
      obtain ⟨-, -, -, ⟨hinvalid', rfl⟩ | ⟨hvalid', -, -, rfl⟩⟩ := System.pack_eq_next hd'
    · exact sameControl_reportInvalidLength c c' n
    · exact absurd hvalid' hinvalid
    · exact absurd hvalid hinvalid'
    · exact sameControl_completePack c c' n _ _
  | rdstatus =>
    cases hd
    cases hd'
    exact h.tell _ _
  | start n =>
    obtain ⟨-, -, -, ⟨hinvalid, rfl⟩ | ⟨hvalid, -, rfl⟩⟩ := System.startStep_eq_next hd <;>
      obtain ⟨-, -, -, ⟨hinvalid', rfl⟩ | ⟨hvalid', -, rfl⟩⟩ := System.startStep_eq_next hd'
    · exact sameControl_reportInvalidLength c c' n
    · exact absurd hvalid' hinvalid
    · exact absurd hvalid hinvalid'
    · exact sameControl_enterRun c c' n
  | acc =>
    obtain ⟨-, e, -, rfl⟩ := System.accStep_eq_next hd
    obtain ⟨-, e', -, rfl⟩ := System.accStep_eq_next hd'
    exact h.accumulate e e'
  | emit =>
    obtain ⟨-, -, rfl⟩ := System.emitStep_eq_next hd
    obtain ⟨-, -, rfl⟩ := System.emitStep_eq_next hd'
    exact h.emitPair
  | finish =>
    obtain ⟨-, rfl⟩ := System.finishStep_eq_next hd
    obtain ⟨-, rfl⟩ := System.finishStep_eq_next hd'
    exact h.finishWith .ok

end Control

/-- Settles O22: the same control registers after the same operation, and the selector is computed from them. -/
theorem dataNeverSteersControl : Obligations.DataNeverSteersControl := by
  intro p c c' d d' i hphase hres hdigit hidx hoptr hlen hexec hexec'
  obtain ⟨_, ⟨⟩, hd⟩ := exec_eq_next hexec
  obtain ⟨_, ⟨⟩, hd'⟩ := exec_eq_next hexec'
  have h : SameControl d d' := SameControl.meaningOf ⟨hphase, hres, hdigit, hidx, hoptr, hlen⟩ hd hd'
  exact ⟨h.phase, h.res, h.digit, h.idx, h.optr, h.len, h.selector⟩

/-! ### The step that is selected -/

section Selected

variable {p : Params} {c : System p}

theorem inMachine_eq_refused_iff {x : Host.Outcome (System p) Fault Refusal} {r : Refusal} :
    inMachine p x = .refused r ↔ x = .refused r := by
  cases x <;> simp

/-! A packer's step is refused only where it is not selected: past that it answers or faults. -/

theorem accStep_refused_iff : c.accStep = .refused .stepNotSelected ↔ ¬ c.accSelected := by
  by_cases hsel : c.accSelected
  · rw [System.accStep_of_selected hsel]
    cases c.readIn c.idx <;> simp [hsel]
  · exact iff_of_true (if_neg hsel) hsel

theorem emitStep_refused_iff : c.emitStep = .refused .stepNotSelected ↔ ¬ c.emitSelected := by
  by_cases hsel : c.emitSelected
  · rw [System.emitStep_of_selected hsel]
    by_cases hroom : c.optr + 1 < c.outSpace.size <;> simp [hsel, hroom]
  · exact iff_of_true (if_neg hsel) hsel

theorem finishStep_refused_iff : c.finishStep = .refused .stepNotSelected ↔ ¬ c.finishSelected := by
  by_cases hsel : c.finishSelected
  · simp [System.finishStep_of_selected hsel, hsel]
  · exact iff_of_true (if_neg hsel) hsel

/-- R82: the selector decodes to a step exactly where the step is selected. -/
theorem decode_selector_eq_ok_iff {i : Instr} :
    decode p (.sel c.selector none) = .ok i ↔
      (i = .acc ∧ c.accSelected) ∨ (i = .emit ∧ c.emitSelected) ∨ (i = .finish ∧ c.finishSelected) := by
  by_cases hrun : c.phase = .run
  · rw [System.decode_selector_none hrun]
    by_cases hfull : c.digit = p.W
    · simp [System.accSelected, System.emitSelected, System.finishSelected, hrun, hfull, eq_comm]
    · by_cases hlast : c.idx = c.len <;>
        simp [System.accSelected, System.emitSelected, System.finishSelected, hrun, hfull, hlast, eq_comm]
  · simp [System.decode_selector_idle hrun, System.accSelected, System.emitSelected, System.finishSelected, hrun]

/-! R145: with nothing pending, a running packer takes the step that is selected. -/

theorem step_of_finishSelected (hsel : c.finishSelected) (hagenda : c.agenda = []) :
    step ⟨p, c⟩ = .next ⟨p, c.finishWith .ok⟩ := by
  obtain ⟨hrun, hfull, hlast⟩ := hsel
  rw [step_of_running hrun hagenda, if_neg hfull, if_pos hlast, exec_finish,
    System.finishStep_of_selected ⟨hrun, hfull, hlast⟩, inMachine_next]

/-- ACC, by the element it finds. -/
theorem step_of_acc_read {e : Scalar p.SW} (hsel : c.accSelected) (hagenda : c.agenda = [])
    (hread : c.inSpace.read c.idx = some e) : step ⟨p, c⟩ = .next ⟨p, c.accumulate e⟩ := by
  obtain ⟨hrun, hfull, hlast⟩ := hsel
  rw [step_of_running hrun hagenda, if_neg hfull, if_neg hlast, exec_acc,
    accStep_of_read ⟨hrun, hfull, hlast⟩ hread, inMachine_next]

/-- EMIT, where OUT has room for the pair. -/
theorem step_of_emit_room (hsel : c.emitSelected) (hagenda : c.agenda = []) (hroom : c.optr + 1 < c.outSpace.size) :
    step ⟨p, c⟩ = .next ⟨p, c.emitPair⟩ := by
  obtain ⟨hrun, hfull⟩ := hsel
  rw [step_of_running hrun hagenda, if_pos hfull, exec_emit, emitStep_of_room ⟨hrun, hfull⟩ hroom, inMachine_next]

end Selected

/-- Settles O24: for each of the three, being refused and not being decoded are both not being selected. -/
theorem stepIsRefusedExactlyWhenNotSelected : Obligations.StepIsRefusedExactlyWhenNotSelected := by
  rintro p c i (rfl | rfl | rfl) <;> rw [Ne, decode_selector_eq_ok_iff]
  · rw [exec_acc, inMachine_eq_refused_iff, accStep_refused_iff]
    simp
  · rw [exec_emit, inMachine_eq_refused_iff, emitStep_refused_iff]
    simp
  · rw [exec_finish, inMachine_eq_refused_iff, finishStep_refused_iff]
    simp

/-! ### The run of a PACK, step by step -/

section Runs

/-- Runs compose. -/
theorem run_add_of_run {j k : Nat} {s t u : State} (hrun : Host.Core.run Sys2Proof.core j s = .next t)
    (hrest : Host.Core.run Sys2Proof.core k t = .next u) : Host.Core.run Sys2Proof.core (j + k) s = .next u := by
  induction j generalizing s with
  | zero =>
    cases hrun
    rwa [Nat.zero_add]
  | succ j ih =>
    obtain ⟨v, hv, hjv⟩ := step_of_run_succ hrun
    rw [Nat.add_right_comm]
    exact (run_succ_of_next hv).trans (ih hjv)

/-- One more step at the end of a run. -/
theorem run_succ_of_run {k : Nat} {s t u : State} (hrun : Host.Core.run Sys2Proof.core k s = .next t)
    (hstep : step t = .next u) : Host.Core.run Sys2Proof.core (k + 1) s = .next u :=
  run_add_of_run hrun ((run_succ_of_next hstep).trans (run_zero u))

end Runs

section Positions

variable {p : Params} {c : System p} {n b k : Nat}

/-- The packer in `RUN`, started on `c` with the length `n`, when `b` blocks are written and `k` elements of the next one are
read (R148): the accumulators hold R111's fold of them. -/
def packerAt (c : System p) (n b k : Nat) : System p :=
  { c with
      lsbAcc := planeFold p.W (fun j => lsbOf (c.inSpace.scalar (b * p.W + j))) k,
      msbAcc := planeFold p.W (fun j => msbOf (c.inSpace.scalar (b * p.W + j))) k,
      digit := k, idx := b * p.W + k, optr := 2 * b, len := n, phase := .run, res := .ok,
      outSpace := writeBlocks p c.inSpace c.outSpace b }

theorem planeFold_zero (w : Nat) (f : Nat → Bool) : planeFold w f 0 = 0#w := rfl

theorem enterRun_eq_packerAt (c : System p) (n : Nat) : c.enterRun n = packerAt c n 0 0 := by
  simp [System.enterRun, System.clearWork, packerAt, planeFold_zero, writeBlocks]

theorem accumulate_packerAt (c : System p) (n b k : Nat) :
    (packerAt c n b k).accumulate (c.inSpace.scalar (b * p.W + k)) = packerAt c n b (k + 1) := by
  simp [System.accumulate, packerAt, planeFold_succ, Nat.add_assoc]

/-- R111, R140: the fold over a whole block is its word, so EMIT makes the block's two writes of R100. -/
theorem emitPair_packerAt (c : System p) (n b : Nat) : (packerAt c n b p.W).emitPair = packerAt c n (b + 1) 0 := by
  simp [System.emitPair, packerAt, planeFold_eq_planeWord, planeFold_zero, writeBlocks, lsbWord, msbWord,
    Nat.succ_mul b, Nat.mul_succ]

theorem finishWith_packerAt (c : System p) (hvalid : n % p.W = 0) :
    (packerAt c n (n / p.W) 0).finishWith .ok =
      c.completePack n (writeBlocks p c.inSpace c.outSpace (n / p.W)) := by
  have hn : n / p.W * p.W = n := Nat.div_mul_cancel (Nat.dvd_of_mod_eq_zero hvalid)
  simp [System.finishWith, System.completePack, packerAt, planeFold_zero, nout, hn]

/-! The packer's own step at each position, with nothing pending. -/

theorem step_packerAt_acc (hagenda : c.agenda = []) (h : c.Ready n) (hb : b < n / p.W) (hk : k < p.W) :
    step ⟨p, packerAt c n b k⟩ = .next ⟨p, packerAt c n b (k + 1)⟩ := by
  have hidx : b * p.W + k < n := block_index_lt hb hk
  have hread : (packerAt c n b k).inSpace.read (b * p.W + k) = some (c.inSpace.scalar (b * p.W + k)) :=
    Space.read_eq_some_scalar _ (h.elements _ hidx)
  rw [step_of_acc_read (c := packerAt c n b k) ⟨rfl, hk.ne, hidx.ne⟩ hagenda hread, accumulate_packerAt]

theorem step_packerAt_emit (hagenda : c.agenda = []) (h : c.Ready n) (hb : b < n / p.W) :
    step ⟨p, packerAt c n b p.W⟩ = .next ⟨p, packerAt c n (b + 1) 0⟩ := by
  have hcap : 2 * (n / p.W) ≤ c.outSpace.size := h.capOk
  have hroom : 2 * b + 1 < (writeBlocks p c.inSpace c.outSpace b).size := by
    rw [writeBlocks_size]
    omega
  rw [step_of_emit_room (c := packerAt c n b p.W) ⟨rfl, rfl⟩ hagenda hroom, emitPair_packerAt]

theorem step_packerAt_finish (hagenda : c.agenda = []) (hvalid : n % p.W = 0) :
    step ⟨p, packerAt c n (n / p.W) 0⟩ =
      .next ⟨p, c.completePack n (writeBlocks p c.inSpace c.outSpace (n / p.W))⟩ := by
  have hfull : 0 ≠ p.W := Nat.ne_of_lt p.W_pos
  have hlast : n / p.W * p.W + 0 = n := Nat.div_mul_cancel (Nat.dvd_of_mod_eq_zero hvalid)
  rw [step_of_finishSelected (c := packerAt c n (n / p.W) 0) ⟨rfl, hfull, hlast⟩ hagenda,
    finishWith_packerAt c hvalid]

/-! The run, element by element and block by block. -/

theorem run_elements (hagenda : c.agenda = []) (h : c.Ready n) (hb : b < n / p.W) (hk : k ≤ p.W) :
    Host.Core.run Sys2Proof.core k (⟨p, packerAt c n b 0⟩ : State) = .next (⟨p, packerAt c n b k⟩ : State) := by
  induction k with
  | zero => rfl
  | succ k ih => exact run_succ_of_run (ih (Nat.le_of_succ_le hk)) (step_packerAt_acc hagenda h hb hk)

theorem run_block (hagenda : c.agenda = []) (h : c.Ready n) (hb : b < n / p.W) :
    Host.Core.run Sys2Proof.core (p.W + 1) (⟨p, packerAt c n b 0⟩ : State) =
      .next (⟨p, packerAt c n (b + 1) 0⟩ : State) :=
  run_succ_of_run (run_elements hagenda h hb le_rfl) (step_packerAt_emit hagenda h hb)

theorem run_blocks (hagenda : c.agenda = []) (h : c.Ready n) (hb : b ≤ n / p.W) :
    Host.Core.run Sys2Proof.core (b * (p.W + 1)) (⟨p, packerAt c n 0 0⟩ : State) =
      .next (⟨p, packerAt c n b 0⟩ : State) := by
  induction b with
  | zero =>
    rw [Nat.zero_mul]
    rfl
  | succ b ih =>
    rw [Nat.succ_mul]
    exact run_add_of_run (ih (Nat.le_of_succ_le hb)) (run_block hagenda h hb)

/-- R146: `length / W` blocks of `W` elements and an EMIT each, and the FINISH. -/
theorem run_packerAt_start (hagenda : c.agenda = []) (h : c.Ready n) (hvalid : n % p.W = 0) :
    Host.Core.run Sys2Proof.core (n + n / p.W + 1) (⟨p, packerAt c n 0 0⟩ : State) =
      .next (⟨p, c.completePack n (writeBlocks p c.inSpace c.outSpace (n / p.W))⟩ : State) := by
  have hsteps : n + n / p.W = n / p.W * (p.W + 1) := by
    rw [Nat.mul_succ, Nat.div_mul_cancel (Nat.dvd_of_mod_eq_zero hvalid)]
  rw [hsteps]
  exact run_succ_of_run (run_blocks hagenda h le_rfl) (step_packerAt_finish hagenda hvalid)

end Positions

/-- Settles O36: the run from START visits the positions block by block and ends in PACK's own outcome; an invalid length is
reported by both at once. -/
theorem stepLevelAgreesWithPack : Obligations.StepLevelAgreesWithPack := by
  intro p c n hagenda
  constructor
  · intro h hvalid
    have hstart : c.startStep n = .next (packerAt c n 0 0) :=
      (startStep_valid h.notRunning h.fits h.inLength hvalid h.capOk).trans (congrArg _ (enterRun_eq_packerAt c n))
    exact ⟨packerAt c n 0 0, congrArg (inMachine p) hstart,
      (run_packerAt_start hagenda h hvalid).trans (exec_pack_of_ready h hvalid).symm⟩
  · intro hrun hn hsize hinvalid
    rw [exec_start, exec_pack, startStep_invalid hrun hn hsize hinvalid, System.pack_invalid hrun hn hsize hinvalid]

/-! ### The invariant -/

section Invariant

variable {p : Params} {c d : System p}

/-! The two words of the block in the accumulators, under the invariant. -/

/-- R148: where the block is full, the accumulators are its two words. -/
theorem accs_eq_words_of_full (h : c.RunInv) (hfull : c.digit = p.W) :
    c.lsbAcc = lsbWord p c.inSpace (c.optr / 2) ∧ c.msbAcc = msbWord p c.inSpace (c.optr / 2) := by
  constructor <;> apply BitVec.eq_of_getLsbD_eq <;> intro k hk
  · rw [lsbWord_getLsbD _ _ _ hk, h.lsbBelow k (hfull ▸ hk)]
  · rw [msbWord_getLsbD _ _ _ hk, h.msbBelow k (hfull ▸ hk)]

/-- ORing the plane bit of position `digit` in extends what an accumulator holds of its plane `f` by that position. -/
theorem or_place_extends_below {w digit : Nat} {acc : PackedWord w} {f : Nat → Bool} {bit : Bool} (hdigit : digit < w)
    (hbelow : ∀ k < digit, acc.getLsbD k = f k) (hclear : acc.getLsbD digit = false) (hbit : bit = f digit) :
    ∀ k < digit + 1, (acc ||| place w bit digit).getLsbD k = f k := by
  intro k hk
  rw [or_place_getLsbD bit (by omega) hclear]
  split
  case isTrue heq => rw [heq, hbit]
  case isFalse hne => exact hbelow k (by omega)

theorem or_place_clear_above {w digit : Nat} {acc : PackedWord w} (bit : Bool)
    (habove : ∀ k < w, digit ≤ k → acc.getLsbD k = false) :
    ∀ k < w, digit + 1 ≤ k → (acc ||| place w bit digit).getLsbD k = false := by
  intro k hk hle
  rw [or_place_getLsbD_of_ne bit (Nat.ne_of_gt hle)]
  exact habove k hk (Nat.le_of_succ_le hle)

/-- R120: START's cleared block and cursors. -/
theorem runInv_enterRun {n : Nat} (hn : n < 2 ^ p.LW) (hsize : c.inSpace.size = n) (hvalid : n % p.W = 0)
    (hcap : nout p n ≤ c.outSpace.size) : (c.enterRun n).RunInv where
  lenValid   := hvalid
  lenFits    := hn
  inLength   := hsize
  capOk      := hcap
  digitLe    := Nat.zero_le _
  optrEven   := rfl
  idxEq      := by simp
  idxLe      := Nat.zero_le _
  lsbBelow   := fun _ hlt => absurd hlt (Nat.not_lt_zero _)
  msbBelow   := fun _ hlt => absurd hlt (Nat.not_lt_zero _)
  lsbAbove   := by simp
  msbAbove   := by simp
  blocksDone := by simp
  optrLe     := Nat.zero_le _
  roomAtFull := fun hfull => absurd hfull (Nat.ne_of_lt p.W_pos)
  resOk      := rfl

/-- R124: the block gains one element; when it is full, it is a whole block of the `len / W`. -/
theorem runInv_accumulate {e : Scalar p.SW} (h : c.RunInv) (hsel : c.accSelected)
    (hread : c.inSpace.read c.idx = some e) : (c.accumulate e).RunInv := by
  obtain ⟨-, hfull, hlast⟩ := hsel
  have hdigit : c.digit < p.W := Nat.lt_of_le_of_ne h.digitLe hfull
  have hidx : c.idx < c.len := Nat.lt_of_le_of_ne h.idxLe hlast
  have hscalar : e = c.inSpace.scalar (c.optr / 2 * p.W + c.digit) := by
    rw [← h.idxEq]
    exact (Space.scalar_of_read _ hread).symm
  have hblock : c.digit + 1 = p.W → c.optr / 2 + 1 ≤ c.len / p.W := by
    intro hnext
    have hidxEq := h.idxEq
    rw [Nat.le_div_iff_mul_le p.W_pos, Nat.succ_mul]
    omega
  exact
    { lenValid   := h.lenValid
      lenFits    := h.lenFits
      inLength   := h.inLength
      capOk      := h.capOk
      digitLe    := hdigit
      optrEven   := h.optrEven
      idxEq      := congrArg (· + 1) h.idxEq
      idxLe      := hidx
      lsbBelow   := or_place_extends_below hdigit h.lsbBelow (h.lsbAbove _ hdigit le_rfl) (congrArg lsbOf hscalar)
      msbBelow   := or_place_extends_below hdigit h.msbBelow (h.msbAbove _ hdigit le_rfl) (congrArg msbOf hscalar)
      lsbAbove   := or_place_clear_above _ h.lsbAbove
      msbAbove   := or_place_clear_above _ h.msbAbove
      blocksDone := h.blocksDone
      optrLe     := h.optrLe
      roomAtFull := fun hnext => by
        have hwhole := hblock hnext
        have heven := h.optrEven
        simp only [System.accumulate_optr, System.accumulate_len, nout]
        omega
      resOk      := h.resOk }

/-- R140: one more block is written, and the next one is empty. -/
theorem runInv_emitPair (h : c.RunInv) (hfull : c.digit = p.W) (hroom : c.optr + 1 < c.outSpace.size) :
    c.emitPair.RunInv := by
  have heven : 2 * (c.optr / 2) = c.optr := Nat.mul_div_cancel' (Nat.dvd_of_mod_eq_zero h.optrEven)
  have hblocks : (c.optr + 2) / 2 = c.optr / 2 + 1 := Nat.add_div_right _ (by decide)
  obtain ⟨hlsb, hmsb⟩ := emitPair_read_pair hroom
  obtain ⟨hlsbWord, hmsbWord⟩ := accs_eq_words_of_full h hfull
  exact
    { lenValid   := h.lenValid
      lenFits    := h.lenFits
      inLength   := h.inLength
      capOk      := (emitPair_outSpace_size c).symm ▸ h.capOk
      digitLe    := Nat.zero_le _
      optrEven   := (Nat.add_mod_right _ _).trans h.optrEven
      idxEq      := by
        simp only [System.emitPair_idx, System.emitPair_optr, System.emitPair_digit]
        rw [hblocks, Nat.succ_mul, h.idxEq, hfull, Nat.add_zero]
      idxLe      := h.idxLe
      lsbBelow   := fun _ hlt => absurd hlt (Nat.not_lt_zero _)
      msbBelow   := fun _ hlt => absurd hlt (Nat.not_lt_zero _)
      lsbAbove   := by simp
      msbAbove   := by simp
      blocksDone := by
        intro b hb
        rw [System.emitPair_optr, hblocks] at hb
        obtain hlt | rfl := Nat.lt_succ_iff_lt_or_eq.1 hb
        · rw [emitPair_read_other c (by omega) (by omega), emitPair_read_other c (by omega) (by omega)]
          exact h.blocksDone b hlt
        · rw [heven, hlsb, hmsb, hlsbWord, hmsbWord]
          exact ⟨rfl, rfl⟩
      optrLe     := h.roomAtFull hfull
      roomAtFull := fun hzero => absurd hzero (Nat.ne_of_lt p.W_pos)
      resOk      := h.resOk }

/-! The invariant of the whole machine, update by update. -/

/-- Neither the agenda nor the answers are in the invariant. -/
theorem inv_setAgenda (h : c.Inv) (l : List (HostMove p)) : (c.setAgenda l).Inv where
  inWf  := h.inWf
  outWf := h.outWf
  run   := fun hrun => { h.run hrun with }
  done  := h.done
  idle  := h.idle

theorem inv_tell (h : c.Inv) (a : Answer p) : (c.tell a).Inv where
  inWf  := h.inWf
  outWf := h.outWf
  run   := fun hrun => { h.run hrun with }
  done  := h.done
  idle  := h.idle

/-- Outside `RUN` the invariant asks of a space its canonical form only. -/
theorem inv_setIn (h : c.Inv) (hrun : c.phase ≠ .run) {m : Space p.SW} (hwf : m.wf) : (c.setIn m).Inv where
  inWf  := hwf
  outWf := h.outWf
  run   := fun hrun' => absurd hrun' hrun
  done  := h.done
  idle  := h.idle

theorem inv_setOut (h : c.Inv) (hrun : c.phase ≠ .run) {m : Space p.W} (hwf : m.wf) : (c.setOut m).Inv where
  inWf  := h.inWf
  outWf := hwf
  run   := fun hrun' => absurd hrun' hrun
  done  := h.done
  idle  := h.idle

theorem inv_hardReset (h : c.Inv) : c.hardReset.Inv where
  inWf  := h.inWf
  outWf := by
    rw [System.hardReset_outSpace]
    by_cases hrun : c.phase = .run
    · rw [System.outAfterReset_of_run hrun]
      exact Space.forgetBelow_wf _ _ h.outWf
    · rw [System.outAfterReset_of_not_run hrun]
      exact h.outWf
  run   := nofun
  done  := nofun
  idle  := fun _ => rfl

theorem inv_reportInvalidLength (h : c.Inv) {n : Nat} (hinvalid : n % p.W ≠ 0) : (c.reportInvalidLength n).Inv where
  inWf  := h.inWf
  outWf := h.outWf
  run   := nofun
  done  := fun _ => iff_of_true rfl hinvalid
  idle  := nofun

theorem inv_completePack (h : c.Inv) {n : Nat} (hvalid : n % p.W = 0) {out : Space p.W} (hwf : out.wf) :
    (c.completePack n out).Inv where
  inWf  := h.inWf
  outWf := hwf
  run   := nofun
  done  := fun _ => iff_of_false nofun (not_not.2 hvalid)
  idle  := nofun

theorem inv_finishWith_ok (h : c.Inv) (hrun : c.phase = .run) : (c.finishWith .ok).Inv where
  inWf  := h.inWf
  outWf := h.outWf
  run   := nofun
  done  := fun _ => iff_of_false nofun (not_not.2 (h.run hrun).lenValid)
  idle  := nofun

/-- In `RUN` the invariant is canonical spaces and R148. -/
theorem inv_of_runInv (hin : c.inSpace.wf) (hout : c.outSpace.wf) (hrun : c.phase = .run) (h : c.RunInv) : c.Inv where
  inWf  := hin
  outWf := hout
  run   := fun _ => h
  done  := fun hdone => absurd (hrun.symm.trans hdone) nofun
  idle  := fun hidle => absurd (hrun.symm.trans hidle) nofun

/-- Every operation keeps the invariant. -/
theorem inv_of_meaningOf {i : Instr} (h : c.Inv) (hd : meaningOf i c = .next d) : d.Inv := by
  cases i with
  | pack n =>
    obtain ⟨-, -, -, ⟨hinvalid, rfl⟩ | ⟨hvalid, -, -, rfl⟩⟩ := System.pack_eq_next hd
    · exact inv_reportInvalidLength h hinvalid
    · exact inv_completePack h hvalid (writeBlocks_wf _ _ _ h.outWf)
  | rdstatus =>
    cases hd
    exact inv_tell h _
  | start n =>
    obtain ⟨-, hn, hsize, ⟨hinvalid, rfl⟩ | ⟨hvalid, hcap, rfl⟩⟩ := System.startStep_eq_next hd
    · exact inv_reportInvalidLength h hinvalid
    · exact inv_of_runInv h.inWf h.outWf rfl (runInv_enterRun hn hsize hvalid hcap)
  | acc =>
    obtain ⟨hsel, e, hread, rfl⟩ := System.accStep_eq_next hd
    have hrun : c.phase = .run := hsel.1
    exact inv_of_runInv h.inWf h.outWf hrun (runInv_accumulate (h.run hrun) hsel hread)
  | emit =>
    obtain ⟨⟨hrun, hfull⟩, hroom, rfl⟩ := System.emitStep_eq_next hd
    have hout : c.emitPair.outSpace.wf := Space.write_wf _ _ _ (Space.write_wf _ _ _ h.outWf)
    exact inv_of_runInv h.inWf hout hrun (runInv_emitPair (h.run hrun) hfull hroom)
  | finish =>
    obtain ⟨⟨hrun, -, -⟩, rfl⟩ := System.finishStep_eq_next hd
    exact inv_finishWith_ok h hrun

/-- Every host move on IN or OUT keeps the invariant. -/
theorem inv_of_bufferMove {m : BufferMove p} (h : c.Inv) (hd : c.bufferMove m = .next d) : d.Inv := by
  obtain ⟨hrun, ⟨l, -, rfl⟩ | ⟨n, v, -, rfl⟩ | ⟨i, e, -, -, rfl⟩ | ⟨i, -, -, rfl⟩ | ⟨j, v, -, -, rfl⟩ |
    ⟨j, -, -, rfl⟩⟩ := System.bufferMove_eq_next hd
  · exact inv_setIn h hrun (Space.ofList_wf l)
  · exact inv_setOut h hrun (Space.filled_wf n v)
  · exact inv_setIn h hrun (Space.write_wf _ i e h.inWf)
  · exact inv_tell h _
  · exact inv_setOut h hrun (Space.write_wf _ j v h.outWf)
  · exact inv_tell h _

end Invariant

/-- Settles O40, by what a step can be: an operation or a host move, after its fetch took it off the agenda, or a quiet
turn. -/
theorem everyStepKeepsTheInvariant : Obligations.EveryStepKeepsTheInvariant := by
  rintro ⟨p, c⟩ t (h : c.Inv) hstep
  obtain ⟨r, c', i, hfetch, -, hexec⟩ | ⟨m, c', d, hfetch, hmove, rfl⟩ | ⟨d, hfetch, rfl⟩ := step_eq_next hstep
  · obtain ⟨l, rfl, -⟩ := System.fetch_eq_request hfetch
    obtain ⟨d, rfl, hd⟩ := exec_eq_next hexec
    exact inv_of_meaningOf (inv_setAgenda h l) hd
  · obtain ⟨l, rfl⟩ := System.fetch_eq_buffer hfetch
    exact inv_of_bufferMove (inv_setAgenda h l) hmove
  · obtain ⟨l, rfl | rfl⟩ := System.fetch_eq_quiet hfetch
    · exact inv_setAgenda h l
    · exact inv_hardReset (inv_setAgenda h l)

/-! ### The progress of a run -/

section Progress

variable {p : Params} {c : System p}

/-- R146: an element less to read. -/
theorem stepsLeft_accumulate (h : c.RunInv) (hlast : c.idx ≠ c.len) (e : Scalar p.SW) :
    (c.accumulate e).stepsLeft + 1 = c.stepsLeft := by
  have hidx := h.idxLe
  simp only [System.stepsLeft, System.accumulate_len, System.accumulate_idx, System.accumulate_optr]
  omega

/-- R146: a block less to write. -/
theorem stepsLeft_emitPair (h : c.RunInv) (hfull : c.digit = p.W) : c.emitPair.stepsLeft + 1 = c.stepsLeft := by
  have hroom : c.optr + 2 ≤ 2 * (c.len / p.W) := h.roomAtFull hfull
  simp only [System.stepsLeft, System.emitPair_len, System.emitPair_idx, System.emitPair_optr]
  omega

/-- Where FINISH is selected every block is written: only the FINISH is left. -/
theorem stepsLeft_of_finishSelected (h : c.RunInv) (hsel : c.finishSelected) : c.stepsLeft = 1 := by
  obtain ⟨-, hfull, hlast⟩ := hsel
  have hdigit : c.digit < p.W := Nat.lt_of_le_of_ne h.digitLe hfull
  have hblocks : c.len / p.W = c.optr / 2 := by
    rw [← hlast, h.idxEq, Nat.add_comm, Nat.add_mul_div_right _ _ p.W_pos, Nat.div_eq_of_lt hdigit, Nat.zero_add]
  simp [System.stepsLeft, hlast, hblocks]

/-- R149: where EMIT is selected its pair is inside OUT. -/
theorem emit_room_of_full (h : c.RunInv) (hfull : c.digit = p.W) : c.optr + 1 < c.outSpace.size := by
  have hroom := h.roomAtFull hfull
  have hcap := h.capOk
  omega

end Progress

/-- Settles O38, by the step that is selected: EMIT has its room, FINISH needs nothing, ACC finds its element. -/
theorem runningPackerIsNeverStuck : Obligations.RunningPackerIsNeverStuck := by
  intro p c hinv hrun hagenda helements
  have h : c.RunInv := hinv.run hrun
  by_cases hfull : c.digit = p.W
  case pos =>
    exact ⟨c.emitPair, step_of_emit_room ⟨hrun, hfull⟩ hagenda (emit_room_of_full h hfull),
      .inr ⟨hrun, stepsLeft_emitPair h hfull⟩⟩
  case neg =>
    by_cases hlast : c.idx = c.len
    case pos =>
      have hsel : c.finishSelected := ⟨hrun, hfull, hlast⟩
      exact ⟨c.finishWith .ok, step_of_finishSelected hsel hagenda, .inl ⟨rfl, rfl, stepsLeft_of_finishSelected h hsel⟩⟩
    case neg =>
      have hread := Space.read_eq_some_scalar _ (helements c.idx (Nat.lt_of_le_of_ne h.idxLe hlast))
      exact ⟨c.accumulate _, step_of_acc_read ⟨hrun, hfull, hlast⟩ hagenda hread,
        .inr ⟨hrun, stepsLeft_accumulate h hlast _⟩⟩

end Sys2Proof.Proofs

/-! PROOFS. Exceptions and several packers (spec/60_exceptions.md): what a PACK of an invalid length changes (R177) and what
it leaves for the commands after it (R179), and packers whose steps interleave (R184). -/

namespace Sys2Proof.Proofs

open Sys2Proof.Machine

/-! ### A PACK of an invalid length -/

section InvalidPack

variable {p : Params} {c : System p} {n : Nat}

theorem exec_pack_invalid (hrun : c.phase ≠ .run) (hn : n < 2 ^ p.LW) (hsize : c.inSpace.size = n)
    (hinvalid : n % p.W ≠ 0) : exec (.pack n) ⟨p, c⟩ = .next ⟨p, c.reportInvalidLength n⟩ :=
  congrArg (inMachine p) (System.pack_invalid hrun hn hsize hinvalid)

theorem reportInvalidLength_statusWord (c : System p) (n : Nat) : (c.reportInvalidLength n).statusWord = 0b110#3 :=
  System.statusWord_done_invalid rfl rfl

theorem sameButRegisters_reportInvalidLength (c : System p) (n : Nat) :
    SameButRegisters (c.reportInvalidLength n) c := ⟨rfl, rfl, rfl, rfl⟩

theorem reportInvalidLength_not_run (c : System p) (n : Nat) : (c.reportInvalidLength n).phase ≠ .run := nofun

end InvalidPack

/-- Settles O8: the report is the update `reportInvalidLength`, written out. -/
theorem invalidPackChangesOnlyTheReport : Obligations.InvalidPackChangesOnlyTheReport :=
  fun _ _ _ hrun hn hsize hinvalid => exec_pack_invalid hrun hn hsize hinvalid

/-- Settles O16: the report differs from the state before it in registers only, and a command sees none of them. -/
theorem failedPackLeavesOnlyItsReport : Obligations.FailedPackLeavesOnlyItsReport := by
  intro p c n hrun hn hsize hinvalid
  refine ⟨c.reportInvalidLength n, exec_pack_invalid hrun hn hsize hinvalid, ?status, fun m => ?next⟩
  case status =>
    rw [exec_rdstatus, reportInvalidLength_statusWord]
    rfl
  case next =>
    have hsame := sameButRegisters_reportInvalidLength c n
    exact congrArg (inMachine p) (pack_congr hsame (reportInvalidLength_not_run c n) hrun m)

/-! ### Several packers -/

/-- A run whose first `j` steps answer goes on from where they end, whatever its end is (`run_add_of_run` is the case of an
answer). -/
theorem run_add_eq_of_run {j k : Nat} {s t : State} (hrun : Host.Core.run Sys2Proof.core j s = .next t) :
    Host.Core.run Sys2Proof.core (j + k) s = Host.Core.run Sys2Proof.core k t := by
  induction j generalizing s with
  | zero =>
    cases hrun
    rw [Nat.zero_add]
  | succ j ih =>
    obtain ⟨u, hstep, hju⟩ := step_of_run_succ hrun
    rw [Nat.add_right_comm, run_succ_of_next hstep, ih hju]

section Packers

variable {f g g' : List State} {k : Nat} {s t : State} {sched rest : List Nat}

theorem stepPacker_of_none (hk : f[k]? = none) : stepPacker k f = .next f := by
  simp only [stepPacker, hk]

theorem stepPacker_of_next (hk : f[k]? = some s) (hstep : step s = .next t) : stepPacker k f = .next (f.set k t) := by
  simp only [stepPacker, hk, hstep]

/-- All that a packer's turn can do when it answers: nothing where the number names no packer, else that packer's step. -/
theorem stepPacker_eq_next (hturn : stepPacker k f = .next g) :
    (f[k]? = none ∧ g = f) ∨ ∃ s t, f[k]? = some s ∧ step s = .next t ∧ g = f.set k t := by
  cases hk : f[k]? with
  | none =>
    rw [stepPacker_of_none hk] at hturn
    cases hturn
    exact .inl ⟨rfl, rfl⟩
  | some s =>
    cases hstep : step s with
    | next t =>
      rw [stepPacker_of_next hk hstep] at hturn
      cases hturn
      exact .inr ⟨s, t, rfl, hstep, rfl⟩
    | fault r => simp [stepPacker, hk, hstep] at hturn
    | refused r => simp [stepPacker, hk, hstep] at hturn

theorem runSchedule_cons_of_next (hturn : stepPacker k f = .next g) :
    runSchedule (k :: rest) f = runSchedule rest g := by
  simp only [runSchedule, hturn]

theorem runSchedule_cons_eq_next (hrun : runSchedule (k :: rest) f = .next g') :
    ∃ g, stepPacker k f = .next g ∧ runSchedule rest g = .next g' := by
  cases hturn : stepPacker k f with
  | next g => exact ⟨g, rfl, (runSchedule_cons_of_next hturn).symm.trans hrun⟩
  | fault r => simp [runSchedule, hturn] at hrun
  | refused r => simp [runSchedule, hturn] at hrun

/-- Packer `k` of `g` is packer `k` of `f` after the steps that `sched` gives it, taken alone. -/
structure AloneTo (sched : List Nat) (f g : List State) : Prop where
  length : g.length = f.length
  packer : ∀ (k : Nat) (s : State), f[k]? = some s →
    ∃ t : State, g[k]? = some t ∧ Host.Core.run Sys2Proof.core (sched.count k) s = .next t

/-- Each packer of `f` alone runs through the steps that `sched` gives it. -/
def RunsAlone (sched : List Nat) (f : List State) : Prop :=
  ∀ (k : Nat) (s : State), f[k]? = some s → ∃ t : State, Host.Core.run Sys2Proof.core (sched.count k) s = .next t

theorem AloneTo.refl (f : List State) : AloneTo [] f f where
  length := rfl
  packer _ s hs := ⟨s, hs, run_zero s⟩

theorem run_count_singleton_of_ne {j : Nat} (hne : k ≠ j) (s : State) :
    Host.Core.run Sys2Proof.core ([k].count j) s = .next s := by
  rw [List.count_singleton, if_neg (by simpa using hne)]
  exact run_zero s

/-- One turn: only the packer it names has moved, by one step. -/
theorem AloneTo.turn (hturn : stepPacker k f = .next g) : AloneTo [k] f g := by
  obtain ⟨hk, rfl⟩ | ⟨s, t, hk, hstep, rfl⟩ := stepPacker_eq_next hturn
  case inl =>
    refine ⟨rfl, fun j u hj => ⟨u, hj, run_count_singleton_of_ne ?_ u⟩⟩
    rintro rfl
    cases hk.symm.trans hj
  case inr =>
    refine ⟨List.length_set, fun j u hj => ?_⟩
    by_cases hjk : k = j
    case pos =>
      subst hjk
      cases hk.symm.trans hj
      obtain ⟨hlt, -⟩ := List.getElem?_eq_some_iff.1 hk
      rw [List.count_singleton_self]
      exact ⟨t, List.getElem?_set_self hlt, (run_succ_of_next hstep).trans (run_zero t)⟩
    case neg => exact ⟨u, (List.getElem?_set_ne hjk).trans hj, run_count_singleton_of_ne hjk u⟩

/-- Schedules compose, because each packer's own runs do. -/
theorem AloneTo.append (hfirst : AloneTo sched f g) (hrest : AloneTo rest g g') : AloneTo (sched ++ rest) f g' where
  length := hrest.length.trans hfirst.length
  packer k s hs := by
    obtain ⟨t, ht, hrun⟩ := hfirst.packer k s hs
    obtain ⟨u, hu, hrun'⟩ := hrest.packer k t ht
    rw [List.count_append]
    exact ⟨u, hu, run_add_of_run hrun hrun'⟩

/-- R184: the packers share nothing, so a schedule that runs through leaves each where it goes alone. -/
theorem aloneTo_of_runSchedule (hrun : runSchedule sched f = .next g) : AloneTo sched f g := by
  induction sched generalizing f with
  | nil =>
    cases hrun
    exact .refl _
  | cons k rest ih =>
    obtain ⟨f', hturn, hrest⟩ := runSchedule_cons_eq_next hrun
    exact (AloneTo.turn hturn).append (ih hrest)

/-- The first turn of a schedule that every packer runs through alone goes through. -/
theorem RunsAlone.head (halone : RunsAlone (k :: rest) f) : ∃ g, stepPacker k f = .next g := by
  cases hk : f[k]? with
  | none => exact ⟨f, stepPacker_of_none hk⟩
  | some s =>
    obtain ⟨t, hrun⟩ := halone k s hk
    rw [List.count_cons_self] at hrun
    obtain ⟨u, hstep, -⟩ := step_of_run_succ hrun
    exact ⟨f.set k u, stepPacker_of_next hk hstep⟩

/-- After the first turn every packer alone runs through the rest. -/
theorem RunsAlone.tail (halone : RunsAlone (k :: rest) f) (hturn : stepPacker k f = .next g) : RunsAlone rest g := by
  intro j t ht
  have hmoved := AloneTo.turn hturn
  obtain ⟨hlt, -⟩ := List.getElem?_eq_some_iff.1 ht
  obtain ⟨s, hs⟩ : ∃ s, f[j]? = some s := ⟨_, List.getElem?_eq_getElem (hmoved.length ▸ hlt)⟩
  obtain ⟨t', ht', hfirst⟩ := hmoved.packer j s hs
  cases ht'.symm.trans ht
  obtain ⟨u, hrun⟩ := halone j s hs
  rw [← List.singleton_append, List.count_append, run_add_eq_of_run hfirst] at hrun
  exact ⟨u, hrun⟩

/-- R184: no packer is stopped by another one. -/
theorem runSchedule_of_runsAlone (halone : RunsAlone sched f) : ∃ g, runSchedule sched f = .next g := by
  induction sched generalizing f with
  | nil => exact ⟨f, rfl⟩
  | cons k rest ih =>
    obtain ⟨g, hturn⟩ := halone.head
    rw [runSchedule_cons_of_next hturn]
    exact ih (halone.tail hturn)

end Packers

/-- Settles O42, by induction on the schedule each way: a turn moves the packer it names as that one's own step does. -/
theorem interleavedPackersRunAsIfAlone : Obligations.InterleavedPackersRunAsIfAlone := by
  refine fun sched f => ⟨fun g hrun => ?_, runSchedule_of_runsAlone⟩
  have halone := aloneTo_of_runSchedule hrun
  exact ⟨halone.length, halone.packer⟩

end Sys2Proof.Proofs

/-! PROOFS. Reset and hazards (spec/70_reset_and_hazards.md): the reset event in and outside `RUN` (R200, R202) and the exact
step counts of a PACK (R210). -/

namespace Sys2Proof.Proofs

open Sys2Proof.Machine

/-! ### The steps of a PACK, counted -/

section StepCount

variable {p : Params} {c : System p} {n k : Nat}

/-- R146: `W` elements and an EMIT for each block are all the steps between START and FINISH. -/
theorem steps_before_finish (hvalid : n % p.W = 0) : n + n / p.W = n / p.W * (p.W + 1) := by
  rw [Nat.mul_succ, Nat.div_mul_cancel (Nat.dvd_of_mod_eq_zero hvalid)]

/-- Before FINISH the packer is at a position of `RUN`: after `k` steps, `k / (W + 1)` blocks are written and `k % (W + 1)`
elements of the next one are read, or every block is written. -/
theorem run_reaches_position (hagenda : c.agenda = []) (h : c.Ready n) (hvalid : n % p.W = 0) (hk : k ≤ n + n / p.W) :
    ∃ b j, Host.Core.run Sys2Proof.core k (⟨p, packerAt c n 0 0⟩ : State) = .next (⟨p, packerAt c n b j⟩ : State) := by
  rw [steps_before_finish hvalid] at hk
  obtain hlt | rfl := Nat.lt_or_eq_of_le hk
  case inl =>
    have hb : k / (p.W + 1) < n / p.W := Nat.div_lt_of_lt_mul (Nat.mul_comm _ _ ▸ hlt)
    have hj : k % (p.W + 1) ≤ p.W := Nat.le_of_lt_succ (Nat.mod_lt k p.W.succ_pos)
    have hrun := run_add_of_run (run_blocks hagenda h hb.le) (run_elements hagenda h hb hj)
    rw [Nat.div_add_mod'] at hrun
    exact ⟨_, _, hrun⟩
  case inr => exact ⟨_, _, run_blocks hagenda h le_rfl⟩

/-- START of a valid length puts the packer at the first position. -/
theorem exec_start_of_ready (h : c.Ready n) (hvalid : n % p.W = 0) :
    exec (.start n) ⟨p, c⟩ = .next ⟨p, packerAt c n 0 0⟩ := by
  rw [exec_start, startStep_valid h.notRunning h.fits h.inLength hvalid h.capOk, enterRun_eq_packerAt, inMachine_next]

end StepCount

/-- Settles O37: the run from START stays at positions of `RUN` up to the step before its last, which is the FINISH that ends
it; an invalid length is reported by START itself. -/
theorem packEndsAfterExactlyItsSteps : Obligations.PackEndsAfterExactlyItsSteps := by
  refine fun p c n hagenda => ⟨fun h hvalid => ?valid, fun hrun hn hsize hinvalid => ?invalid⟩
  case valid =>
    refine ⟨⟨p, packerAt c n 0 0⟩, exec_start_of_ready h hvalid, fun k hk => ?_⟩
    obtain hlt | rfl := Nat.lt_or_eq_of_le hk
    case inl =>
      obtain ⟨b, j, hrun⟩ := run_reaches_position hagenda h hvalid (Nat.le_of_lt_succ hlt)
      exact ⟨packerAt c n b j, hrun, (if_neg hlt.ne).symm⟩
    case inr => exact ⟨_, run_packerAt_start hagenda h hvalid, (if_pos rfl).symm⟩
  case invalid =>
    exact ⟨c.reportInvalidLength n, congrArg (inMachine p) (startStep_invalid hrun hn hsize hinvalid), rfl⟩

/-! ### The reset event -/

section Reset

variable {p : Params}

theorem fetch_reset (c : System p) (rest : List (HostMove p)) :
    (c.setAgenda (.reset :: rest)).fetch = .quiet (c.setAgenda rest).hardReset := rfl

theorem step_of_reset (c : System p) (rest : List (HostMove p)) :
    step ⟨p, c.setAgenda (.reset :: rest)⟩ = .next ⟨p, (c.setAgenda rest).hardReset⟩ :=
  step_of_fetch_quiet (fetch_reset c rest)

/-- R200, R202: the reset event puts the registers, whatever the phase; OUT alone depends on it. -/
theorem hardReset_setAgenda (c : System p) (rest : List (HostMove p)) :
    (c.setAgenda rest).hardReset = { c with
      agenda := rest, phase := .idle, res := .ok, lsbAcc := 0#p.W, msbAcc := 0#p.W, digit := 0, idx := 0, optr := 0,
      len := 0, outSpace := c.outAfterReset } := rfl

end Reset

/-- Settles O29: outside `RUN` the reset event leaves OUT as it was; `State.resetOf` holds R35's values, and an idle packer's
status is 0. -/
theorem resetPutsEveryRegister : Obligations.ResetPutsEveryRegister := by
  refine fun p c rest => ⟨fun hrun => ?event, ?values⟩
  case event =>
    have hstep := step_of_reset c rest
    rwa [hardReset_setAgenda, System.outAfterReset_of_not_run hrun] at hstep
  case values => exact ⟨_, rfl, rfl, rfl, rfl, rfl, rfl, rfl, rfl, rfl, System.statusWord_idle rfl⟩

/-- Settles O30: OUT is left with what it holds from the abandoned PACK's NOUT on. -/
theorem resetWhileRunningForgetsOut : Obligations.ResetWhileRunningForgetsOut := by
  intro p c rest hrun
  have hstep := step_of_reset c rest
  rw [hardReset_setAgenda, System.outAfterReset_of_run hrun] at hstep
  refine ⟨c.outSpace.forgetBelow (nout p c.len), hstep, Space.forgetBelow_size _ _, fun j hj => ?below, fun j hj => ?above⟩
  case below => exact (Space.read_forgetBelow _ _ j).trans (if_neg (Nat.not_le_of_lt hj))
  case above => exact (Space.read_forgetBelow _ _ j).trans (if_pos hj)

end Sys2Proof.Proofs

/-! PROOFS. The words of the opcode table (spec/30_encoding.md section 4): a table word is the request that its row's operation
is encoded as, so decoding it is the round trip of `encode`; EMIT's second vector is the one selector word without that. -/

namespace Sys2Proof.Proofs

section TableWords

variable {nbits w : Nat} {i : Instr}

theorem decodeTableWord_of_decode (h : decode Config.params (tableRequest nbits w) = .ok i) :
    decodeTableWord nbits w = some i :=
  congrArg Except.toOption h

/-- The decoder's round trip, read on the number that a table row writes for its operation. -/
theorem decodeTableWord_of_encode (hwf : i.wf Config.params = true) (hword : tableRequest nbits w = encode i) :
    decodeTableWord nbits w = some i :=
  decodeTableWord_of_decode (hword ▸ encodedOperationDecodesToItself Config.params i hwf)

/-- R83: no command word is illegal; a number of any width but a selector's is the PACK of that length. -/
theorem decodeTableWord_command (hcmd : nbits ≠ 8) (hfits : w < 2 ^ Config.params.LW) :
    decodeTableWord nbits w = some (.pack w) :=
  decodeTableWord_of_encode (decide_eq_true hfits) (if_neg hcmd)

/-- R82: EMIT's row is `1 1 x`, and `last = 1` is the vector that `encode` does not give. -/
theorem decodeTableWord_emit_last : decodeTableWord 8 0x7 = some .emit := by
  have hsel : selectStep 0b111#3 = some .emit := (selectStep_eq_emit_iff _).2 (.inr rfl)
  have hword : tableRequest 8 0x7 = .sel 0b111#3 none := rfl
  exact decodeTableWord_of_decode (hword ▸ decode_sel_eq_ok_iff.2 (.inr ⟨rfl, .inr (.inl ⟨hsel, rfl⟩)⟩))

end TableWords

/-- Settles O28: the selector words are encodings but for EMIT's second one, and the command words fit `CMD_LEN`. -/
theorem tableWordsDecode : Obligations.TableWordsDecode := by
  refine ⟨?acc, ?emit, decodeTableWord_emit_last, ?finish, ?start, ?pack8, ?pack5⟩
  case acc => exact decodeTableWord_of_encode rfl rfl
  case emit => exact decodeTableWord_of_encode rfl rfl
  case finish => exact decodeTableWord_of_encode rfl rfl
  case start => exact decodeTableWord_of_encode (by decide) rfl
  case pack8 => exact decodeTableWord_command (by decide) (by decide)
  case pack5 => exact decodeTableWord_command (by decide) (by decide)

end Sys2Proof.Proofs
